-- ==== Sys2Proof/Word.lean ====
section
/-! DEFINITION. Word.lean: the two widths of data the hardware has (20_memory.md R57) and nothing else. -/

namespace Sys2Proof

/-- 8 bits: a byte of memory, a byte view, an I/O datum (R9, R57). -/
abbrev Byte := BitVec 8

/-- 32 bits: a register, the program counter, an address (R8 `XLEN`, R9). -/
abbrev Word := BitVec 32

end Sys2Proof
end

