-- ==== Sys2Proof/Syntax.lean ====
section
/-! DEFINITION. Syntax.lean: the instructions as data, one constructor per row of spec/opcode_table.json
(30_encoding.md R90, R93, R94, R99), with the addressing descriptor of 41_modrm_addressing.md R130. -/

namespace Sys2Proof

/-- A 3-bit register number: an index of `x[0..7]`, or of the byte views `x8[0..7]` (R83, R87). -/
abbrev RegNum := BitVec 3

/-! The IA-32 names of the register numbers (R22, R92; names only, D2). -/
abbrev EAX : RegNum := 0
abbrev ECX : RegNum := 1
abbrev EDX : RegNum := 2
abbrev EBX : RegNum := 3
abbrev ESP : RegNum := 4
abbrev EBP : RegNum := 5
abbrev ESI : RegNum := 6
abbrev EDI : RegNum := 7

/-! The IA-32 names of the byte views (R24, R92; names only, D2). -/
abbrev AL : RegNum := 0
abbrev CL : RegNum := 1
abbrev DL : RegNum := 2
abbrev BL : RegNum := 3
abbrev AH : RegNum := 4
abbrev CH : RegNum := 5
abbrev DH : RegNum := 6
abbrev BH : RegNum := 7

/-- The addressing descriptor of R130.  `sib` is the SIB byte when one is present ("read but not decoded");
`disp` is already sign-extended, and 0 when absent.  `m.len` of R130 is `ModRM.len` (Decode.lean). -/
structure ModRM where
  mod  : BitVec 2
  reg  : RegNum
  rm   : RegNum
  sib  : Option Byte
  disp : Word
  deriving DecidableEq, Repr

/-- The instructions, in the order of R90, then the three refused rows of R99. -/
inductive Instr where
  | movR32Imm32 (r : RegNum) (imm : Word)            -- R170
  | movRm32Imm32 (m : ModRM) (imm : Word)            -- R171
  | movRm8R8 (m : ModRM)                             -- R172
  | movRm32R32 (m : ModRM)                           -- R173
  | movR8Rm8 (m : ModRM)                             -- R174
  | movR32Rm32 (m : ModRM)                           -- R175
  | addRm32R32 (m : ModRM)                           -- R180
  | addRm32Imm8 (m : ModRM) (imm : Byte)             -- R181
  | subRm32Imm8 (m : ModRM) (imm : Byte)             -- R182
  | cmpRm32Imm8 (m : ModRM) (imm : Byte)             -- R183
  | incRm32 (m : ModRM)                              -- R185
  | incR32 (r : RegNum)                              -- R187
  | pushR32 (r : RegNum)                             -- R202
  | popR32 (r : RegNum)                              -- R203
  | pushImm32 (imm : Word)                           -- R204
  | pushImm8 (imm : Byte)                            -- R205
  | cmpR32Rm32 (m : ModRM)                           -- R188
  | cmpAlImm8 (imm : Byte)                           -- R189
  | cmpEaxImm32 (imm : Word)                         -- R190
  | jmpRel8 (d : Byte)                               -- R211
  | jmpRel32 (d : Word)                              -- R212
  | joRel8 (d : Byte)                                -- R213
  | jnoRel8 (d : Byte)                               -- R214
  | jcRel8 (d : Byte)                                -- R215
  | jncRel8 (d : Byte)                               -- R216
  | jzRel8 (d : Byte)                                -- R217
  | jnzRel8 (d : Byte)                               -- R218
  | jsRel8 (d : Byte)                                -- R219
  | jnsRel8 (d : Byte)                               -- R220
  | jlRel8 (d : Byte)                                -- R221
  | jleRel8 (d : Byte)                               -- R222
  | callRel32 (d : Word)                             -- R223
  | ret                                              -- R224
  | leave                                            -- R206
  | intImm8 (v : Byte)                               -- R230
  | inAlDx                                           -- R235
  | outDxAl                                          -- R236
  | grp83Unimplemented (m : ModRM)                   -- R184
  | grpFFUnimplemented (m : ModRM)                   -- R186
  | unrecognized (b : Byte)                          -- R118
  deriving DecidableEq, Repr

end Sys2Proof
end

