-- ==== Sys2Proof/Decode.lean ====
section
/-! DEFINITION. Decode.lean: the opcode table (00_scope.md R8 `OPC`; 30_encoding.md R90, held in one place as D1 asks), the
decoder over any such table (R91, 41_modrm_addressing.md R131), and after it the encoder over the same table.

The decoder draws its fields through two readers, `Code8(k)` and `Code32(k)` of 40_fetch_decode.md R111, so that one text
serves a list of bytes (`decode`) and the memory at the program counter (`fetch`, Machine/Fetch.lean), and a field that
cannot be read is reported at the place and in the order R256 gives. -/

namespace Sys2Proof

/-! ### Bytes and words -/

/-- Four bytes, lowest address first, as a 32-bit value (R51). -/
def ofLE (b0 b1 b2 b3 : Byte) : Word := b3 ++ b2 ++ b1 ++ b0

/-- The four bytes of a 32-bit value, lowest address first (R51). -/
def toLE (v : Word) : List Byte := [v.extractLsb' 0 8, v.extractLsb' 8 8, v.extractLsb' 16 8, v.extractLsb' 24 8]

/-- `sext_32` of a byte (R9, R112). -/
def sext32 (b : Byte) : Word := b.signExtend 32

/-! ### The opcode table -/

/-- The rows of R90 by first byte: the two group opcodes, `83` and `FF` in the default table, are one entry each, split by
sub-opcode afterwards (R91). -/
inductive Opcode where
  | movR32Imm32 | movRm32Imm32 | movRm8R8 | movRm32R32 | movR8Rm8 | movR32Rm32
  | addRm32R32 | grp83 | grpFF | incR32 | pushR32 | popR32 | pushImm32 | pushImm8
  | cmpR32Rm32 | cmpAlImm8 | cmpEaxImm32 | jmpRel8 | jmpRel32
  | joRel8 | jnoRel8 | jcRel8 | jncRel8 | jzRel8 | jnzRel8 | jsRel8 | jnsRel8 | jlRel8 | jleRel8
  | callRel32 | ret | leave | intImm8 | inAlDx | outDxAl
  deriving DecidableEq, Repr

/-- All entries, in the order of R90, which is their priority order (R99). -/
def Opcode.all : List Opcode :=
  [.movR32Imm32, .movRm32Imm32, .movRm8R8, .movRm32R32, .movR8Rm8, .movR32Rm32,
   .addRm32R32, .grp83, .grpFF, .incR32, .pushR32, .popR32, .pushImm32, .pushImm8,
   .cmpR32Rm32, .cmpAlImm8, .cmpEaxImm32, .jmpRel8, .jmpRel32,
   .joRel8, .jnoRel8, .jcRel8, .jncRel8, .jzRel8, .jnzRel8, .jsRel8, .jnsRel8, .jlRel8, .jleRel8,
   .callRel32, .ret, .leave, .intImm8, .inAlDx, .outDxAl]

/-- The bits of the opcode byte that are fixed: all eight, but the upper five in a register-in-opcode family (R82). -/
def Opcode.mask : Opcode → Byte
  | .movR32Imm32 | .incR32 | .pushR32 | .popR32 => 0xF8
  | _ => 0xFF

/-- The parameter `OPC` of R8 (U18, D1): the opcode byte of every entry, `base` for a register-in-opcode family (R82), and the
sub-opcode numbers of the first group.  That INC is sub-opcode 0 of the second group is the source's own, not a parameter
(log 25). -/
structure OpcodeTable where
  movR32Imm32 : Byte
  movRm32Imm32 : Byte
  movRm8R8 : Byte
  movRm32R32 : Byte
  movR8Rm8 : Byte
  movR32Rm32 : Byte
  addRm32R32 : Byte
  grp83 : Byte
  grpFF : Byte
  incR32 : Byte
  pushR32 : Byte
  popR32 : Byte
  pushImm32 : Byte
  pushImm8 : Byte
  cmpR32Rm32 : Byte
  cmpAlImm8 : Byte
  cmpEaxImm32 : Byte
  jmpRel8 : Byte
  jmpRel32 : Byte
  joRel8 : Byte
  jnoRel8 : Byte
  jcRel8 : Byte
  jncRel8 : Byte
  jzRel8 : Byte
  jnzRel8 : Byte
  jsRel8 : Byte
  jnsRel8 : Byte
  jlRel8 : Byte
  jleRel8 : Byte
  callRel32 : Byte
  ret : Byte
  leave : Byte
  intImm8 : Byte
  inAlDx : Byte
  outDxAl : Byte
  addSub : RegNum
  subSub : RegNum
  cmpSub : RegNum
  deriving DecidableEq, Repr

/-- The byte a table gives an entry. -/
def OpcodeTable.byte (t : OpcodeTable) : Opcode → Byte
  | .movR32Imm32 => t.movR32Imm32
  | .movRm32Imm32 => t.movRm32Imm32
  | .movRm8R8 => t.movRm8R8
  | .movRm32R32 => t.movRm32R32
  | .movR8Rm8 => t.movR8Rm8
  | .movR32Rm32 => t.movR32Rm32
  | .addRm32R32 => t.addRm32R32
  | .grp83 => t.grp83
  | .grpFF => t.grpFF
  | .incR32 => t.incR32
  | .pushR32 => t.pushR32
  | .popR32 => t.popR32
  | .pushImm32 => t.pushImm32
  | .pushImm8 => t.pushImm8
  | .cmpR32Rm32 => t.cmpR32Rm32
  | .cmpAlImm8 => t.cmpAlImm8
  | .cmpEaxImm32 => t.cmpEaxImm32
  | .jmpRel8 => t.jmpRel8
  | .jmpRel32 => t.jmpRel32
  | .joRel8 => t.joRel8
  | .jnoRel8 => t.jnoRel8
  | .jcRel8 => t.jcRel8
  | .jncRel8 => t.jncRel8
  | .jzRel8 => t.jzRel8
  | .jnzRel8 => t.jnzRel8
  | .jsRel8 => t.jsRel8
  | .jnsRel8 => t.jnsRel8
  | .jlRel8 => t.jlRel8
  | .jleRel8 => t.jleRel8
  | .callRel32 => t.callRel32
  | .ret => t.ret
  | .leave => t.leave
  | .intImm8 => t.intImm8
  | .inAlDx => t.inAlDx
  | .outDxAl => t.outDxAl

/-- Columns "byte" and `/n` of R90, the default of `OPC` (R8).
UNVERIFIED, unsafe (log 5): the spec takes these IA-32 values from general knowledge (D1). -/
def OpcodeTable.ia32 : OpcodeTable where
  movR32Imm32  := 0xB8
  movRm32Imm32 := 0xC7
  movRm8R8     := 0x88
  movRm32R32   := 0x89
  movR8Rm8     := 0x8A
  movR32Rm32   := 0x8B
  addRm32R32   := 0x01
  grp83        := 0x83
  grpFF        := 0xFF
  incR32       := 0x40
  pushR32      := 0x50
  popR32       := 0x58
  pushImm32    := 0x68
  pushImm8     := 0x6A
  cmpR32Rm32   := 0x3B
  cmpAlImm8    := 0x3C
  cmpEaxImm32  := 0x3D
  jmpRel8      := 0xEB
  jmpRel32     := 0xE9
  joRel8       := 0x70
  jnoRel8      := 0x71
  jcRel8       := 0x72
  jncRel8      := 0x73
  jzRel8       := 0x74
  jnzRel8      := 0x75
  jsRel8       := 0x78
  jnsRel8      := 0x79
  jlRel8       := 0x7C
  jleRel8      := 0x7E
  callRel32    := 0xE8
  ret          := 0xC3
  leave        := 0xC9
  intImm8      := 0xCD
  inAlDx       := 0xEC
  outDxAl      := 0xEE
  addSub       := 0
  subSub       := 5
  cmpSub       := 7

/-- Two entries share a first byte exactly when their bytes agree on the bits that both fix. -/
def OpcodeTable.overlap (t : OpcodeTable) (o p : Opcode) : Bool := t.byte o &&& p.mask == t.byte p &&& o.mask

/-- A table that tells instructions apart: every family's base is a multiple of 8 (R82), no first byte belongs to two
entries, and the three sub-opcodes differ.  The spec states no such condition on `OPC` but R82's (log 24). -/
def OpcodeTable.legal (t : OpcodeTable) : Bool :=
  (Opcode.all.all fun o => t.byte o &&& o.mask == t.byte o) &&
    decide (Opcode.all.Pairwise fun o p => t.overlap o p = false) &&
    (t.addSub != t.subSub && t.addSub != t.cmpSub && t.subSub != t.cmpSub)

/-- The entry of a first byte, none when it is unrecognized (R91): the first in priority order that matches (R99). -/
def lookup (t : OpcodeTable) (b : Byte) : Option Opcode := Opcode.all.find? fun o => b &&& o.mask == t.byte o

/-! ### Lengths -/

/-- A SIB byte is present exactly when `mod ≠ 3` and `rm = 4` (R84). -/
def ModRM.hasSib (m : ModRM) : Bool := m.mod != 3 && m.rm == 4

/-- Bytes of displacement: 4 when `mod = 2`, or `mod = 0` and `rm = 5`; 1 when `mod = 1`; else none (R84). -/
def dispSize (mod : BitVec 2) (rm : RegNum) : Nat :=
  if mod = 2 ∨ (mod = 0 ∧ rm = 5) then 4 else if mod = 1 then 1 else 0

/-- `M` of R84, `m.len` of R130: ModRM byte, SIB byte when present, displacement. -/
def ModRM.len (m : ModRM) : Nat := 1 + (if m.hasSib then 1 else 0) + dispSize m.mod m.rm

/-- The bytes the decoder consumes (R81).  For the two unimplemented groups that is opcode and ModRM group (the immediate
is not fetched, R184); for an unrecognized opcode it is one byte (R118). -/
def Instr.length : Instr → Nat
  | .movR32Imm32 _ _ => 5
  | .movRm32Imm32 m _ => 5 + m.len
  | .movRm8R8 m => 1 + m.len
  | .movRm32R32 m => 1 + m.len
  | .movR8Rm8 m => 1 + m.len
  | .movR32Rm32 m => 1 + m.len
  | .addRm32R32 m => 1 + m.len
  | .addRm32Imm8 m _ => 2 + m.len
  | .subRm32Imm8 m _ => 2 + m.len
  | .cmpRm32Imm8 m _ => 2 + m.len
  | .incRm32 m => 1 + m.len
  | .incR32 _ => 1
  | .pushR32 _ => 1
  | .popR32 _ => 1
  | .pushImm32 _ => 5
  | .pushImm8 _ => 2
  | .cmpR32Rm32 m => 1 + m.len
  | .cmpAlImm8 _ => 2
  | .cmpEaxImm32 _ => 5
  | .jmpRel8 _ => 2
  | .jmpRel32 _ => 5
  | .joRel8 _ => 2
  | .jnoRel8 _ => 2
  | .jcRel8 _ => 2
  | .jncRel8 _ => 2
  | .jzRel8 _ => 2
  | .jnzRel8 _ => 2
  | .jsRel8 _ => 2
  | .jnsRel8 _ => 2
  | .jlRel8 _ => 2
  | .jleRel8 _ => 2
  | .callRel32 _ => 5
  | .ret => 1
  | .leave => 1
  | .intImm8 _ => 2
  | .inAlDx => 1
  | .outDxAl => 1
  | .grp83Unimplemented m => 1 + m.len
  | .grpFFUnimplemented m => 1 + m.len
  | .unrecognized _ => 1

/-- The longest instruction, in bytes (R80). -/
def maxLength : Nat := 11

/-! ### Decoding -/

/-- The register number in the low three bits of an opcode byte (R82). -/
def opcodeReg (b : Byte) : RegNum := b.extractLsb' 0 3

/-- The SIB byte at offset 2, when the descriptor has one (R131). -/
def readSib {ε : Type} (c8 : Nat → Except ε Byte) (hasSib : Bool) : Except ε (Option Byte) :=
  match hasSib with
  | true => do return some (← c8 2)
  | false => .ok none

/-- The displacement of `size` bytes at offset `k`, sign-extended, 0 when absent (R131). -/
def readDisp {ε : Type} (c8 : Nat → Except ε Byte) (c32 : Nat → Except ε Word) (size k : Nat) : Except ε Word :=
  match size with
  | 4 => c32 k
  | 1 => do return sext32 (← c8 k)
  | _ => .ok 0

/-- `ParseModRM()` (R131): the ModRM byte is at offset 1, the SIB byte at 2, the displacement after them. -/
def parseModRM {ε : Type} (c8 : Nat → Except ε Byte) (c32 : Nat → Except ε Word) : Except ε ModRM := do
  let b ← c8 1
  let mod := b.extractLsb' 6 2
  let reg := b.extractLsb' 3 3
  let rm := b.extractLsb' 0 3
  let hasSib := mod != 3 && rm == 4
  let sib ← readSib c8 hasSib
  let disp ← readDisp c8 c32 (dispSize mod rm) (if hasSib then 3 else 2)
  return { mod, reg, rm, sib, disp }

/-- The group of opcode `83`: the sub-opcode is examined before the immediate is fetched (R181 to R184, R256). -/
def decodeGrp83 {ε : Type} (t : OpcodeTable) (c8 : Nat → Except ε Byte) (m : ModRM) : Except ε Instr :=
  if m.reg = t.addSub then do return .addRm32Imm8 m (← c8 (1 + m.len))
  else if m.reg = t.subSub then do return .subRm32Imm8 m (← c8 (1 + m.len))
  else if m.reg = t.cmpSub then do return .cmpRm32Imm8 m (← c8 (1 + m.len))
  else .ok (.grp83Unimplemented m)

/-- The group of opcode `FF` (R185, R186). -/
def decodeGrpFF (m : ModRM) : Instr := if m.reg = 0 then .incRm32 m else .grpFFUnimplemented m

/-- The operands of a recognized opcode byte `b`, format by format (R81, R91). -/
def decodeOperands {ε : Type} (t : OpcodeTable) (c8 : Nat → Except ε Byte) (c32 : Nat → Except ε Word) (b : Byte) :
    Opcode → Except ε Instr
  | .movR32Imm32 => do return .movR32Imm32 (opcodeReg b) (← c32 1)
  | .movRm32Imm32 => do
      let m ← parseModRM c8 c32
      return .movRm32Imm32 m (← c32 (1 + m.len))
  | .movRm8R8 => do return .movRm8R8 (← parseModRM c8 c32)
  | .movRm32R32 => do return .movRm32R32 (← parseModRM c8 c32)
  | .movR8Rm8 => do return .movR8Rm8 (← parseModRM c8 c32)
  | .movR32Rm32 => do return .movR32Rm32 (← parseModRM c8 c32)
  | .addRm32R32 => do return .addRm32R32 (← parseModRM c8 c32)
  | .grp83 => do decodeGrp83 t c8 (← parseModRM c8 c32)
  | .grpFF => do return decodeGrpFF (← parseModRM c8 c32)
  | .incR32 => .ok (.incR32 (opcodeReg b))
  | .pushR32 => .ok (.pushR32 (opcodeReg b))
  | .popR32 => .ok (.popR32 (opcodeReg b))
  | .pushImm32 => do return .pushImm32 (← c32 1)
  | .pushImm8 => do return .pushImm8 (← c8 1)
  | .cmpR32Rm32 => do return .cmpR32Rm32 (← parseModRM c8 c32)
  | .cmpAlImm8 => do return .cmpAlImm8 (← c8 1)
  | .cmpEaxImm32 => do return .cmpEaxImm32 (← c32 1)
  | .jmpRel8 => do return .jmpRel8 (← c8 1)
  | .jmpRel32 => do return .jmpRel32 (← c32 1)
  | .joRel8 => do return .joRel8 (← c8 1)
  | .jnoRel8 => do return .jnoRel8 (← c8 1)
  | .jcRel8 => do return .jcRel8 (← c8 1)
  | .jncRel8 => do return .jncRel8 (← c8 1)
  | .jzRel8 => do return .jzRel8 (← c8 1)
  | .jnzRel8 => do return .jnzRel8 (← c8 1)
  | .jsRel8 => do return .jsRel8 (← c8 1)
  | .jnsRel8 => do return .jnsRel8 (← c8 1)
  | .jlRel8 => do return .jlRel8 (← c8 1)
  | .jleRel8 => do return .jleRel8 (← c8 1)
  | .callRel32 => do return .callRel32 (← c32 1)
  | .ret => .ok .ret
  | .leave => .ok .leave
  | .intImm8 => do return .intImm8 (← c8 1)
  | .inAlDx => .ok .inAlDx
  | .outDxAl => .ok .outDxAl

/-- The decoding procedure of R91 over any table and any pair of readers.  An unrecognized first byte is the instruction
`unrecognized b` of R118: no further byte is read. -/
def decodeWith {ε : Type} (t : OpcodeTable) (c8 : Nat → Except ε Byte) (c32 : Nat → Except ε Word) : Except ε Instr := do
  let b ← c8 0
  match lookup t b with
  | some o => decodeOperands t c8 c32 b o
  | none => return .unrecognized b

/-- Why a list of bytes is no instruction: every encoding has a meaning or a refused row of its own, so the one reason is
that the list ends before a field of `size` bytes at `offset` does. -/
inductive DecodeError where
  | truncated (offset size : Nat)
  deriving DecidableEq, Repr

/-- `Code8(k)` over a list of bytes. -/
def listCode8 (bs : List Byte) (k : Nat) : Except DecodeError Byte :=
  match bs[k]? with
  | some b => .ok b
  | none => .error (.truncated k 1)

/-- `Code32(k)` over a list of bytes. -/
def listCode32 (bs : List Byte) (k : Nat) : Except DecodeError Word :=
  match bs.drop k with
  | b0 :: b1 :: b2 :: b3 :: _ => .ok (ofLE b0 b1 b2 b3)
  | _ => .error (.truncated k 4)

/-- The instruction at the head of a list of bytes; `Instr.length` of them are its own, the rest are not looked at. -/
def decode (t : OpcodeTable) (bs : List Byte) : Except DecodeError Instr := decodeWith t (listCode8 bs) (listCode32 bs)

/-! ### Encoding -/

/-- The ModRM byte (R83). -/
def ModRM.byte (m : ModRM) : Byte := m.mod ++ m.reg ++ m.rm

/-- The displacement field of `size` bytes (R84, R86). -/
def encodeDisp (size : Nat) (disp : Word) : List Byte :=
  match size with
  | 4 => toLE disp
  | 1 => [disp.setWidth 8]
  | _ => []

/-- The ModRM group: ModRM byte, SIB byte, displacement (R80, R84). -/
def ModRM.encode (m : ModRM) : List Byte := [m.byte] ++ m.sib.toList ++ encodeDisp (dispSize m.mod m.rm) m.disp

/-- The opcode byte of a register-in-opcode form, `base + r` (R82). -/
def OpcodeTable.withReg (t : OpcodeTable) (o : Opcode) (r : RegNum) : Byte := t.byte o + r.setWidth 8

/-- The bytes of an instruction under a table, lowest address first (R80, R81, R90). -/
def encode (t : OpcodeTable) : Instr → List Byte
  | .movR32Imm32 r imm => [t.withReg .movR32Imm32 r] ++ toLE imm
  | .movRm32Imm32 m imm => [t.byte .movRm32Imm32] ++ m.encode ++ toLE imm
  | .movRm8R8 m => [t.byte .movRm8R8] ++ m.encode
  | .movRm32R32 m => [t.byte .movRm32R32] ++ m.encode
  | .movR8Rm8 m => [t.byte .movR8Rm8] ++ m.encode
  | .movR32Rm32 m => [t.byte .movR32Rm32] ++ m.encode
  | .addRm32R32 m => [t.byte .addRm32R32] ++ m.encode
  | .addRm32Imm8 m imm => [t.byte .grp83] ++ m.encode ++ [imm]
  | .subRm32Imm8 m imm => [t.byte .grp83] ++ m.encode ++ [imm]
  | .cmpRm32Imm8 m imm => [t.byte .grp83] ++ m.encode ++ [imm]
  | .incRm32 m => [t.byte .grpFF] ++ m.encode
  | .incR32 r => [t.withReg .incR32 r]
  | .pushR32 r => [t.withReg .pushR32 r]
  | .popR32 r => [t.withReg .popR32 r]
  | .pushImm32 imm => [t.byte .pushImm32] ++ toLE imm
  | .pushImm8 imm => [t.byte .pushImm8, imm]
  | .cmpR32Rm32 m => [t.byte .cmpR32Rm32] ++ m.encode
  | .cmpAlImm8 imm => [t.byte .cmpAlImm8, imm]
  | .cmpEaxImm32 imm => [t.byte .cmpEaxImm32] ++ toLE imm
  | .jmpRel8 d => [t.byte .jmpRel8, d]
  | .jmpRel32 d => [t.byte .jmpRel32] ++ toLE d
  | .joRel8 d => [t.byte .joRel8, d]
  | .jnoRel8 d => [t.byte .jnoRel8, d]
  | .jcRel8 d => [t.byte .jcRel8, d]
  | .jncRel8 d => [t.byte .jncRel8, d]
  | .jzRel8 d => [t.byte .jzRel8, d]
  | .jnzRel8 d => [t.byte .jnzRel8, d]
  | .jsRel8 d => [t.byte .jsRel8, d]
  | .jnsRel8 d => [t.byte .jnsRel8, d]
  | .jlRel8 d => [t.byte .jlRel8, d]
  | .jleRel8 d => [t.byte .jleRel8, d]
  | .callRel32 d => [t.byte .callRel32] ++ toLE d
  | .ret => [t.byte .ret]
  | .leave => [t.byte .leave]
  | .intImm8 v => [t.byte .intImm8, v]
  | .inAlDx => [t.byte .inAlDx]
  | .outDxAl => [t.byte .outDxAl]
  | .grp83Unimplemented m => [t.byte .grp83] ++ m.encode
  | .grpFFUnimplemented m => [t.byte .grpFF] ++ m.encode
  | .unrecognized b => [b]

/-! ### The opcode table's numbering of bits -/

/-- The bytes of an instruction whose bits are `w`, byte `k` being bits `8k+7..8k`, with every bit from `nbits` on 0,
up to the longest instruction. -/
def tableBytes (nbits w : Nat) : List Byte :=
  (List.range maxLength).map fun k => BitVec.ofNat 8 ((w % 2 ^ nbits) >>> (8 * k))

/-- What the decoder reads, under the default table, from an instruction whose bits spec/opcode_table.json numbers `w`. -/
def decodeTableWord (nbits w : Nat) : Option Instr := (decode .ia32 (tableBytes nbits w)).toOption

end Sys2Proof
end

