-- ==== Sys2Proof/Config.lean ====
section
/-! DEFINITION. Config.lean: the implementation parameters of 00_scope.md R8, plain data that State carries unchanged,
and the one free value of the model, what the environment supplies to a console read. -/

namespace Sys2Proof

/-- How an 8-bit immediate becomes 32 bits, where the spec leaves a parameter (R8, D12, D14). -/
inductive Ext where
  /-- `sext_32`. -/
  | sign
  /-- `zext_32`. -/
  | zero
  deriving DecidableEq, Repr

/-- The parameters of R8.  `XLEN` and `NREG` are fixed in the types, and `IMAGE` is an argument of `boot`
(Machine/Ops.lean). -/
structure Config where
  /-- `MEM_SIZE`, the number of bytes of memory and the memory bound; OPEN (D5). -/
  memSize      : Nat
  /-- `LOAD_OFFSET`. -/
  loadOffset   : Word
  /-- `ENTRY_PC`. -/
  entryPc      : Word
  /-- `INIT_SP`. -/
  initSp       : Word
  /-- `CONSOLE_PORT` (D18, D30). -/
  consolePort  : BitVec 16
  /-- `PUSH_IMM8_EXT` (D12). -/
  pushImm8Ext  : Ext
  /-- `CMP_AL_IMM8_EXT` (D14). -/
  cmpAlImm8Ext : Ext
  /-- `OPC`, the opcode assignment (D1, U18). -/
  opc          : OpcodeTable
  deriving DecidableEq, Repr

/-- `1 ≤ MEM_SIZE ≤ 2^32` (R8, R280). -/
def Config.wf (c : Config) : Bool := decide (1 ≤ c.memSize ∧ c.memSize ≤ 2 ^ 32)

/-- The reference defaults of R8.  R8 gives no default for `MEM_SIZE`; 0x10000 is the size the spec's test vectors use.
DESIGN CHOICE, unsafe (log 2): no statement rests on that size. -/
def Config.reference : Config where
  memSize      := 0x10000
  loadOffset   := 0x7c00
  entryPc      := 0x7c00
  initSp       := 0x7c00
  consolePort  := 0x03F8
  pushImm8Ext  := .sign
  cmpAlImm8Ext := .sign
  opc          := .ia32

/-- What the environment answers the n-th time a console read asks it for a byte beyond the launch-time stream: a byte,
or none yet (R233, D19, U8, U9).  A FREE VALUE: no body, nothing constrains it (log 6). -/
opaque Config.consoleSupply : Nat → Option Byte

end Sys2Proof
end

