-- ==== Sys2Proof/Machine/State.lean ====
section
/-! DEFINITION. Machine/State.lean: the architectural state of 10_state.md R20 as plain data, the block's output events
(47_io_interrupt.md R237, 60_exceptions.md R258), its parameters (00_scope.md R8) and its input, with the reset values
of R40 to R44. -/

namespace Sys2Proof.Machine

/-- The four flags, "each independently settable and testable" (R26).  Their places in the flags word are
`Flags.word` (Machine/Flags.lean). -/
structure Flags where
  CF : Bool
  ZF : Bool
  SF : Bool
  OF : Bool
  deriving DecidableEq, Repr

/-- `run_state` (R33). -/
inductive RunState where
  | running
  | halted
  | fatal
  deriving DecidableEq, Repr

/-- `halt_cause` (R34). -/
inductive HaltCause where
  | none
  | pcZero
  | pcBound
  deriving DecidableEq, Repr

/-- `kind` of a memory access (R52, R53). -/
inductive AccessKind where
  | fetch
  | read
  | write
  deriving DecidableEq, Repr

/-- A fatal cause with its `fatal_info` (R251). -/
inductive FatalCause where
  /-- Code 1: a SIB form had its address resolved; info `mod`. -/
  | sibNotImplemented (mod : BitVec 2)
  /-- Code 2: effective-address resolution reached with `mod = 3`; info `rm`.  Unreachable (R134). -/
  | eaMode3 (rm : RegNum)
  /-- Code 3: an unimplemented sub-opcode of `83` or `FF` (whatever bytes `OPC` gives the groups); info opcode and `reg`. -/
  | subopcodeNotImplemented (opcode : Byte) (reg : RegNum)
  /-- Code 4: an access of `n` bytes at `addr` passes the memory bound. -/
  | memRange (addr : Word) (n : Nat) (kind : AccessKind)
  deriving DecidableEq, Repr

/-- The events of R237 and R258, the block's whole output. -/
inductive Event where
  | display (ch : Byte) (color : BitVec 3) (bright : BitVec 1)
  | consoleOut (v : Byte)
  | consoleIn (b : Byte)
  | unhandledInterrupt (v : Byte)
  | unhandledVideoFunction (f : Byte)
  | unrecognizedOpcode (b : Byte) (ia : Word)
  | halted (cause : HaltCause)
  | fatalStop (cause : FatalCause)
  deriving DecidableEq, Repr

/-- Memory: the bytes that are not 0, by address, in the canonical form `Memory.wf` (Machine/Ops.lean).  An address that
is not listed reads 0, as R43 gives for every byte outside the image. -/
abbrev Memory := List Host.Cell

/-- The state of the block (R20), with its parameters, its output so far and its pending input. -/
structure State where
  /-- The parameters of R8; no step changes them (log 4). -/
  cfg          : Config
  /-- `x[0..7]` (R21). -/
  regs         : Vector Word 8
  /-- CF, ZF, SF, OF (R26). -/
  flags        : Flags
  /-- The program counter (R28). -/
  pc           : Word
  /-- `mem` (R31). -/
  mem          : Memory
  /-- `run_state` (R33). -/
  runState     : RunState
  /-- `halt_cause` (R34). -/
  haltCause    : HaltCause
  /-- `fatal_cause` with `fatal_info`, none for NONE (R35, log 12). -/
  fatal        : Option FatalCause
  /-- The event sequence, oldest first (R237, log 8). -/
  events       : List Event
  /-- The model's own: the launch-time console input stream, less what was consumed (R233, D19, log 6). -/
  consoleIn    : List Byte
  /-- The model's own: how often the environment was asked for a byte beyond that stream (log 6). -/
  consolePolls : Nat
  deriving DecidableEq, Repr

/-- The reasons a step can stop with a fault: none.  Every exceptional condition of the spec (60_exceptions.md R250) is an
effect on the state, which the step takes as a next state, a fatal stop included (R252, log 10). -/
inductive Fault
  deriving DecidableEq, Repr

/-- The reasons there is no meaning. -/
inductive Refusal where
  /-- Raised by `exec` for an instruction that has no meaning yet; no arm does.  Safe. -/
  | notModelled (mnemonic : String)
  /-- Raised by `boot` for parameters and an image that violate a `require` of 70_reset_and_hazards.md R280: "the block
  does not come out of reset" (D27).  Safe: no run exists. -/
  | configuration
  deriving DecidableEq, Repr

/-- The state right after reset with parameters `c`, before the image is placed (R40 to R44, R280).
The zeros of `x[0..3]`, `x[5..7]` and the flags are the spec's own decision (D4, log 3). -/
def State.resetWith (c : Config) : State where
  cfg          := c
  regs         := (Vector.replicate 8 0).set 4 c.initSp
  flags        := { CF := false, ZF := false, SF := false, OF := false }
  pc           := c.entryPc
  mem          := []
  runState     := .running
  haltCause    := .none
  fatal        := none
  events       := []
  consoleIn    := []
  consolePolls := 0

/-- The machine right after reset, at the reference defaults of R8 and with no image placed (log 2, log 9). -/
def State.reset : State := State.resetWith Config.reference

end Sys2Proof.Machine
end

