-- ==== Sys2Proof/Machine/Ops.lean ====
section
/-! DEFINITION. Machine/Ops.lean: the named operations over memory, registers, events, the run state, the stack and the
ports (10_state.md, 20_memory.md, 45_stack.md R200 and R201, 47_io_interrupt.md R233 and R234), the fatal stop as one shared operation
(60_exceptions.md R252, R253), and reset with an image (70_reset_and_hazards.md R280). -/

namespace Sys2Proof.Machine

/-! ### Memory as a list of cells -/

/-- The byte at address `a`, 0 where none is listed (R43). -/
def Memory.read : Memory → Nat → Byte
  | [], _ => 0
  | (k, v) :: m, a => if k = a then v else Memory.read m a

/-- A cell put before the first one of a higher address. -/
def Memory.insert : Memory → Nat → Byte → Memory
  | [], a, v => [(a, v)]
  | (k, x) :: m, a, v => if a < k then (a, v) :: (k, x) :: m else (k, x) :: Memory.insert m a v

/-- `mem[a] <- v`; writing 0, what an unlisted address reads as, leaves no cell. -/
def Memory.write (m : Memory) (a : Nat) (v : Byte) : Memory :=
  let rest := m.filter fun c => c.1 != a
  if v = 0 then rest else Memory.insert rest a v

/-- The bytes `bs` written from address `a` upwards. -/
def Memory.writeBytes (m : Memory) (a : Nat) : List Byte → Memory
  | [] => m
  | b :: bs => Memory.writeBytes (Memory.write m a b) (a + 1) bs

/-- The canonical form: addresses strictly rising, no cell holding 0. -/
abbrev Memory.wf (m : Memory) : Prop := m.Pairwise (fun c d => c.1 < d.1) ∧ ∀ c ∈ m, c.2 ≠ 0

/-- Every listed address is below the memory bound (R31). -/
abbrev Memory.below (m : Memory) (size : Nat) : Prop := ∀ c ∈ m, c.1 < size

/-! ### Registers and byte views -/

/-- `x[r]` (R21). -/
def State.reg (s : State) (r : RegNum) : Word := s.regs[r.toNat]'r.isLt

/-- `x[r] <- v` (R21). -/
def State.setReg (s : State) (r : RegNum) (v : Word) : State := { s with regs := s.regs.set r.toNat v r.isLt }

/-- The register that owns byte view `j`: `j` itself, or `j - 4` for the high bytes (R23). -/
def viewOwner (j : RegNum) : RegNum := if j.toNat ≤ 3 then j else j - 4

/-- `x8[j]` (R23). -/
def State.reg8 (s : State) (j : RegNum) : Byte :=
  if j.toNat ≤ 3 then (s.reg j).extractLsb' 0 8 else (s.reg (j - 4)).extractLsb' 8 8

/-- `x8[j] <- v` (R23): the other 24 bits of the owning register keep their value. -/
def State.setReg8 (s : State) (j : RegNum) (v : Byte) : State :=
  if j.toNat ≤ 3 then s.setReg j ((s.reg j &&& 0xFFFFFF00#32) ||| v.setWidth 32)
  else s.setReg (j - 4) ((s.reg (j - 4) &&& 0xFFFF00FF#32) ||| (v.setWidth 32 <<< 8))

/-- The read-only snapshot of R36. -/
def State.snapshot (s : State) : Vector Word 8 × Word := (s.regs, s.pc)

/-! ### Program counter, events, ends of a run -/

/-- `pc <- t`. -/
def State.setPc (s : State) (t : Word) : State := { s with pc := t }

/-- `pc <- ia + n`, modulo `2^32` (R30); `ia` is the pc the instruction began with. -/
def State.advance (s : State) (n : Nat) : State := s.setPc (s.pc + BitVec.ofNat 32 n)

/-- `emit e` (R11): the event is appended to the sequence. -/
def State.emit (s : State) (e : Event) : State := { s with events := s.events ++ [e] }

/-- A halt condition ends the run (R116). -/
def State.halt (s : State) (c : HaltCause) : State :=
  { s with runState := .halted, haltCause := c }.emit (.halted c)

/-- `raise Fatal(c, i)`, the machine's one exceptional entry (R252): the status fields and the event, nothing else;
`pc` stays at the faulting instruction (R253). -/
def State.raiseFatal (s : State) (c : FatalCause) : State :=
  { s with runState := .fatal, fatal := some c }.emit (.fatalStop c)

/-- The end of an instruction begun in `s`: the state its rule produced, or, where the rule raised a fatal condition, `s`
with the fatal stop taken, every assignment and event of the rule discarded (R12, R116, R253). -/
def complete (s : State) (r : Except FatalCause State) : Host.Outcome State Fault Refusal :=
  match r with
  | .ok t => .next t
  | .error c => .next (s.raiseFatal c)

/-- The codes of `fatal_cause` (R251; 0 is NONE). -/
def fatalCode : Option FatalCause → Nat
  | none => 0
  | some (.sibNotImplemented _) => 1
  | some (.eaMode3 _) => 2
  | some (.subopcodeNotImplemented _ _) => 3
  | some (.memRange _ _ _) => 4

/-- The codes of `halt_cause` (R34). -/
def haltCode : HaltCause → Nat
  | .none => 0
  | .pcZero => 1
  | .pcBound => 2

/-! ### The access primitives -/

/-- The range test of R52 and R53, on the unbounded sum: no access wraps (D10). -/
def State.inRange (s : State) (a : Word) (n : Nat) : Bool := decide (a.toNat + n ≤ s.cfg.memSize)

/-- The byte at a memory address, with no range test. -/
def State.byteAt (s : State) (a : Nat) : Byte := Memory.read s.mem a

/-- `MemRead(a, 1)` (R52). -/
def State.memRead8 (s : State) (a : Word) (kind : AccessKind) : Except FatalCause Byte :=
  if s.inRange a 1 then .ok (s.byteAt a.toNat) else .error (.memRange a 1 kind)

/-- `MemRead(a, 4)` (R52), little-endian (R51). -/
def State.memRead32 (s : State) (a : Word) (kind : AccessKind) : Except FatalCause Word :=
  if s.inRange a 4 then
    .ok (ofLE (s.byteAt a.toNat) (s.byteAt (a.toNat + 1)) (s.byteAt (a.toNat + 2)) (s.byteAt (a.toNat + 3)))
  else .error (.memRange a 4 kind)

/-- `MemWrite(a, 1, v)` (R53). -/
def State.memWrite8 (s : State) (a : Word) (v : Byte) : Except FatalCause State :=
  if s.inRange a 1 then .ok { s with mem := Memory.writeBytes s.mem a.toNat [v] } else .error (.memRange a 1 .write)

/-- `MemWrite(a, 4, v)` (R53), little-endian (R51). -/
def State.memWrite32 (s : State) (a : Word) (v : Word) : Except FatalCause State :=
  if s.inRange a 4 then .ok { s with mem := Memory.writeBytes s.mem a.toNat (toLE v) }
  else .error (.memRange a 4 .write)

/-! ### The stack -/

/-- `Push32(v)` (R200): the store is at the old stack pointer less 4 (90_conflicts.md C11). -/
def State.push32 (s : State) (v : Word) : Except FatalCause State := do
  let sp := s.reg ESP - 4
  let t ← s.memWrite32 sp v
  return t.setReg ESP sp

/-- `Pop32()` (R201): the value and the state with the stack pointer moved. -/
def State.pop32 (s : State) : Except FatalCause (Word × State) := do
  let v ← s.memRead32 (s.reg ESP) .read
  return (v, s.setReg ESP (s.reg ESP + 4))

/-! ### The I/O facade -/

/-- The next byte of the console input source (R233): the next of the launch-time stream, and past its end what the
environment supplies, a free value; none when it has no byte to give yet (U9, log 6). -/
def State.nextInput (s : State) : Option Byte :=
  match s.consoleIn with
  | b :: _ => some b
  | [] => Config.consoleSupply s.consolePolls

/-- The input source has been asked once: the stream is one byte shorter, or past its end the environment was polled. -/
def State.pollInput (s : State) : State :=
  match s.consoleIn with
  | _ :: bs => { s with consoleIn := bs }
  | [] => { s with consolePolls := s.consolePolls + 1 }

/-- `PortIn(p)` (R233): the byte read, none when a console read has to wait, and the state after. -/
def State.portIn (s : State) (p : BitVec 16) : Option Byte × State :=
  if p = s.cfg.consolePort then
    match s.nextInput with
    | some b => (some b, s.pollInput.emit (.consoleIn b))
    | none => (none, s.pollInput)
  else (some 0, s)

/-- `PortOut(p, v)` (R234). -/
def State.portOut (s : State) (p : BitVec 16) (v : Byte) : State :=
  if p = s.cfg.consolePort then s.emit (.consoleOut v) else s

/-! ### Reset with an image -/

/-- The `require` lines of R280. -/
def bootable (c : Config) (image : List Byte) : Bool :=
  c.wf && decide (c.loadOffset.toNat + image.length ≤ c.memSize)

/-- `Reset(MEM_SIZE, LOAD_OFFSET, IMAGE, ENTRY_PC, INIT_SP)` (R280); a configuration that violates a `require` is refused
(D27). -/
def boot (c : Config) (image : List Byte) : Host.Outcome State Fault Refusal :=
  if bootable c image then
    .next { State.resetWith c with mem := Memory.writeBytes [] c.loadOffset.toNat image }
  else .refused .configuration

end Sys2Proof.Machine
end

