-- ==== Sys2Proof/Machine/Flags.lean ====
section
/-! DEFINITION. Machine/Flags.lean: the flag rule, the ALU operations and the condition predicates
(42_flag_engine_alu.md), and the flags word (10_state.md R27). -/

namespace Sys2Proof.Machine

/-- `SubFlags(a, b)` (R150): the flags of `a - b`, from the unbounded difference and its truncation. -/
def subFlags (a b : Word) : Flags :=
  let w : Int := (a.toNat : Int) - (b.toNat : Int)
  let r : Word := BitVec.ofInt 32 w
  { CF := decide (w < 0)
    ZF := r == 0
    SF := r.getLsbD 31
    OF := (a.getLsbD 31 != b.getLsbD 31) && (r.getLsbD 31 != a.getLsbD 31) }

/-- All four flags are written at once (R29). -/
def State.setFlags (s : State) (f : Flags) : State := { s with flags := f }

/-- `add(a, b)` (R155): modulo `2^32`, no flag (R156). -/
def aluAdd (a b : Word) : Word := a + b

/-- `sub(a, b)` (R155): modulo `2^32`; the caller runs `SubFlags`. -/
def aluSub (a b : Word) : Word := a - b

/-- `inc(a)` (R155): modulo `2^32`, no flag (R156). -/
def aluInc (a : Word) : Word := a + 1

/-- The ten predicates of R157, by name. -/
inductive Cond where
  | O | NO | C | NC | Z | NZ | S | NS | L | LE
  deriving DecidableEq, Repr

/-- What each predicate tests (R157). -/
def condHolds (f : Flags) : Cond → Bool
  | .O => f.OF
  | .NO => !f.OF
  | .C => f.CF
  | .NC => !f.CF
  | .Z => f.ZF
  | .NZ => !f.ZF
  | .S => f.SF
  | .NS => !f.SF
  | .L => f.SF != f.OF
  | .LE => f.ZF || (f.SF != f.OF)

/-- The flags word in the IA-32 layout of R27: CF bit 0, ZF bit 6, SF bit 7, OF bit 11, every other bit 0.  No
instruction reads it (D3, log 11). -/
def Flags.word (f : Flags) : Word :=
  (BitVec.ofBool f.CF).setWidth 32 ||| (BitVec.ofBool f.ZF).setWidth 32 <<< 6
    ||| (BitVec.ofBool f.SF).setWidth 32 <<< 7 ||| (BitVec.ofBool f.OF).setWidth 32 <<< 11

end Sys2Proof.Machine
end

