-- ==== Sys2Proof/Machine/Operands.lean ====
section
/-! DEFINITION. Machine/Operands.lean: effective addresses and operand access through a descriptor
(41_modrm_addressing.md R132 to R142), and the widening of 8-bit immediates (30_encoding.md R86). -/

namespace Sys2Proof.Machine

/-- `EA(m)` (R132), the sum modulo `2^32` (R136).  The `mod = 3` case is kept as the detectable error R134 asks for. -/
def State.effAddr (s : State) (m : ModRM) : Except FatalCause Word :=
  if m.mod = 3 then .error (.eaMode3 m.rm)
  else if m.rm = 4 then .error (.sibNotImplemented m.mod)
  else if m.mod = 0 ∧ m.rm = 5 then .ok m.disp
  else if m.mod = 0 then .ok (s.reg m.rm)
  else .ok (s.reg m.rm + m.disp)

/-- `ReadRM32(m)` (R137). -/
def State.readRM32 (s : State) (m : ModRM) : Except FatalCause Word :=
  if m.mod = 3 then .ok (s.reg m.rm)
  else do
    let a ← s.effAddr m
    s.memRead32 a .read

/-- `WriteRM32(m, v)` (R138). -/
def State.writeRM32 (s : State) (m : ModRM) (v : Word) : Except FatalCause State :=
  if m.mod = 3 then .ok (s.setReg m.rm v)
  else do
    let a ← s.effAddr m
    s.memWrite32 a v

/-- `ReadRM8(m)` (R139); with `mod = 3` the `rm` field is a byte-view index (D26). -/
def State.readRM8 (s : State) (m : ModRM) : Except FatalCause Byte :=
  if m.mod = 3 then .ok (s.reg8 m.rm)
  else do
    let a ← s.effAddr m
    s.memRead8 a .read

/-- `WriteRM8(m, v)` (R140). -/
def State.writeRM8 (s : State) (m : ModRM) (v : Byte) : Except FatalCause State :=
  if m.mod = 3 then .ok (s.setReg8 m.rm v)
  else do
    let a ← s.effAddr m
    s.memWrite8 a v

/-- The extension a parameter selects (R189, R205). -/
def widen (e : Ext) (b : Byte) : Word :=
  match e with
  | .sign => sext32 b
  | .zero => b.setWidth 32

end Sys2Proof.Machine
end

