-- ==== Sys2Proof/Machine/Arithmetic.lean ====
section
/-! DEFINITION. Machine/Arithmetic.lean: ADD, SUB, INC and CMP (44_arithmetic_compare.md R180 to R190).  ADD and INC write
no flag (42_flag_engine_alu.md R156). -/

namespace Sys2Proof.Machine

/-- ADD r/m32, r32 (R180); the r/m operand is the destination (D15). -/
def execAddRm32R32 (m : ModRM) (s : State) : Host.Outcome State Fault Refusal :=
  complete s do
    let a ← s.readRM32 m
    let t ← s.writeRM32 m (aluAdd a (s.reg m.reg))
    return t.advance (1 + m.len)

/-- ADD r/m32, imm8 (R181); the immediate is sign-extended (D13). -/
def execAddRm32Imm8 (m : ModRM) (imm : Byte) (s : State) : Host.Outcome State Fault Refusal :=
  complete s do
    let a ← s.readRM32 m
    let t ← s.writeRM32 m (aluAdd a (sext32 imm))
    return t.advance (2 + m.len)

/-- SUB r/m32, imm8 (R182). -/
def execSubRm32Imm8 (m : ModRM) (imm : Byte) (s : State) : Host.Outcome State Fault Refusal :=
  complete s do
    let a ← s.readRM32 m
    let t ← s.writeRM32 m (aluSub a (sext32 imm))
    return (t.setFlags (subFlags a (sext32 imm))).advance (2 + m.len)

/-- CMP r/m32, imm8 (R183). -/
def execCmpRm32Imm8 (m : ModRM) (imm : Byte) (s : State) : Host.Outcome State Fault Refusal :=
  complete s do
    let a ← s.readRM32 m
    return (s.setFlags (subFlags a (sext32 imm))).advance (2 + m.len)

/-- INC r/m32 (R185). -/
def execIncRm32 (m : ModRM) (s : State) : Host.Outcome State Fault Refusal :=
  complete s do
    let a ← s.readRM32 m
    let t ← s.writeRM32 m (aluInc a)
    return t.advance (1 + m.len)

/-- INC r32 (R187). -/
def execIncR32 (r : RegNum) (s : State) : Host.Outcome State Fault Refusal :=
  complete s <| .ok ((s.setReg r (aluInc (s.reg r))).advance 1)

/-- CMP r32, r/m32 (R188): the register is the minuend. -/
def execCmpR32Rm32 (m : ModRM) (s : State) : Host.Outcome State Fault Refusal :=
  complete s do
    let b ← s.readRM32 m
    return (s.setFlags (subFlags (s.reg m.reg) b)).advance (1 + m.len)

/-- CMP AL, imm8 (R189): both bytes widened as `CMP_AL_IMM8_EXT` says (D14). -/
def execCmpAlImm8 (imm : Byte) (s : State) : Host.Outcome State Fault Refusal :=
  complete s <| .ok
    ((s.setFlags (subFlags (widen s.cfg.cmpAlImm8Ext (s.reg8 AL)) (widen s.cfg.cmpAlImm8Ext imm))).advance 2)

/-- CMP EAX, imm32 (R190). -/
def execCmpEaxImm32 (imm : Word) (s : State) : Host.Outcome State Fault Refusal :=
  complete s <| .ok ((s.setFlags (subFlags (s.reg EAX) imm)).advance 5)

end Sys2Proof.Machine
end

