-- ==== Sys2Proof/Machine/ControlTransfer.lean ====
section
/-! DEFINITION. Machine/ControlTransfer.lean: jumps, conditional jumps, CALL and RET (46_control_transfer.md R210 to R224).
None writes a flag; no target is checked when the transfer executes (R210). -/

namespace Sys2Proof.Machine

/-- `Target(L, d) = ia + L + d`, modulo `2^32` (R210). -/
def State.target (s : State) (len : Nat) (d : Word) : Word := s.pc + BitVec.ofNat 32 len + d

/-- JMP rel8 (R211). -/
def execJmpRel8 (d : Byte) (s : State) : Host.Outcome State Fault Refusal :=
  complete s <| .ok (s.setPc (s.target 2 (sext32 d)))

/-- JMP rel32 (R212). -/
def execJmpRel32 (d : Word) (s : State) : Host.Outcome State Fault Refusal :=
  complete s <| .ok (s.setPc (s.target 5 d))

/-- The operation the ten conditional jumps share: the displacement when the predicate holds, else fall through. -/
def jumpIf (c : Cond) (d : Byte) (s : State) : Host.Outcome State Fault Refusal :=
  complete s <| .ok (if condHolds s.flags c then s.setPc (s.target 2 (sext32 d)) else s.advance 2)

/-- JO rel8 (R213). -/
def execJoRel8 (d : Byte) (s : State) : Host.Outcome State Fault Refusal := jumpIf .O d s

/-- JNO rel8 (R214). -/
def execJnoRel8 (d : Byte) (s : State) : Host.Outcome State Fault Refusal := jumpIf .NO d s

/-- JC rel8 (R215). -/
def execJcRel8 (d : Byte) (s : State) : Host.Outcome State Fault Refusal := jumpIf .C d s

/-- JNC rel8 (R216). -/
def execJncRel8 (d : Byte) (s : State) : Host.Outcome State Fault Refusal := jumpIf .NC d s

/-- JZ rel8 (R217). -/
def execJzRel8 (d : Byte) (s : State) : Host.Outcome State Fault Refusal := jumpIf .Z d s

/-- JNZ rel8 (R218). -/
def execJnzRel8 (d : Byte) (s : State) : Host.Outcome State Fault Refusal := jumpIf .NZ d s

/-- JS rel8 (R219). -/
def execJsRel8 (d : Byte) (s : State) : Host.Outcome State Fault Refusal := jumpIf .S d s

/-- JNS rel8 (R220). -/
def execJnsRel8 (d : Byte) (s : State) : Host.Outcome State Fault Refusal := jumpIf .NS d s

/-- JL rel8 (R221). -/
def execJlRel8 (d : Byte) (s : State) : Host.Outcome State Fault Refusal := jumpIf .L d s

/-- JLE rel8 (R222). -/
def execJleRel8 (d : Byte) (s : State) : Host.Outcome State Fault Refusal := jumpIf .LE d s

/-- CALL rel32 (R223): the return address is the byte after the instruction. -/
def execCallRel32 (d : Word) (s : State) : Host.Outcome State Fault Refusal :=
  complete s do
    let t ← s.push32 (s.pc + 5)
    return t.setPc (s.target 5 d)

/-- RET (R224). -/
def execRet (s : State) : Host.Outcome State Fault Refusal :=
  complete s do
    let (v, t) ← s.pop32
    return t.setPc v

end Sys2Proof.Machine
end

