-- ==== Sys2Proof/Machine/DataMovement.lean ====
section
/-! DEFINITION. Machine/DataMovement.lean: the MOV family (43_data_movement.md R170 to R175).  None writes a flag. -/

namespace Sys2Proof.Machine

/-- MOV r32, imm32 (R170). -/
def execMovR32Imm32 (r : RegNum) (imm : Word) (s : State) : Host.Outcome State Fault Refusal :=
  complete s <| .ok ((s.setReg r imm).advance 5)

/-- MOV r/m32, imm32 (R171); the `reg` field is not examined (D16). -/
def execMovRm32Imm32 (m : ModRM) (imm : Word) (s : State) : Host.Outcome State Fault Refusal :=
  complete s do
    let t ← s.writeRM32 m imm
    return t.advance (5 + m.len)

/-- MOV r/m8, r8 (R172). -/
def execMovRm8R8 (m : ModRM) (s : State) : Host.Outcome State Fault Refusal :=
  complete s do
    let t ← s.writeRM8 m (s.reg8 m.reg)
    return t.advance (1 + m.len)

/-- MOV r/m32, r32 (R173). -/
def execMovRm32R32 (m : ModRM) (s : State) : Host.Outcome State Fault Refusal :=
  complete s do
    let t ← s.writeRM32 m (s.reg m.reg)
    return t.advance (1 + m.len)

/-- MOV r8, r/m8 (R174). -/
def execMovR8Rm8 (m : ModRM) (s : State) : Host.Outcome State Fault Refusal :=
  complete s do
    let v ← s.readRM8 m
    return (s.setReg8 m.reg v).advance (1 + m.len)

/-- MOV r32, r/m32 (R175). -/
def execMovR32Rm32 (m : ModRM) (s : State) : Host.Outcome State Fault Refusal :=
  complete s do
    let v ← s.readRM32 m
    return (s.setReg m.reg v).advance (1 + m.len)

end Sys2Proof.Machine
end

