-- ==== Sys2Proof/Machine/InterruptIo.lean ====
section
/-! DEFINITION. Machine/InterruptIo.lean: INT with the teletype video service, IN and OUT (47_io_interrupt.md R230 to
R236).  None writes a flag. -/

namespace Sys2Proof.Machine

/-- `Teletype()` (R231): the character is AL, the 4-bit colour number the low half of BL, split into colour-id and
brightness (D20). -/
def State.teletype (s : State) : State :=
  let attr := s.reg8 BL &&& 0x0F
  s.emit (.display (s.reg8 AL) (attr.extractLsb' 0 3) (attr.extractLsb' 3 1))

/-- INT imm8 (R230): the pc advances before dispatch, and the service is performed inside the step (D33). -/
def execIntImm8 (v : Byte) (s : State) : Host.Outcome State Fault Refusal :=
  let t := s.advance 2
  complete s <| .ok
    (if v = 0x10 then
      if t.reg8 AH = 0x0E then t.teletype else t.emit (.unhandledVideoFunction (t.reg8 AH))
    else t.emit (.unhandledInterrupt v))

/-- The port number of IN and OUT: the low 16 bits of EDX (D18). -/
def State.portNumber (s : State) : BitVec 16 := (s.reg EDX).extractLsb' 0 16

/-- IN AL, DX (R235).  A console read with no byte to give holds: the pc stays at the instruction (R233, U9, log 6). -/
def execInAlDx (s : State) : Host.Outcome State Fault Refusal :=
  complete s <| .ok
    (match s.portIn s.portNumber with
     | (some b, t) => (t.setReg8 AL b).advance 1
     | (none, t) => t)

/-- OUT DX, AL (R236). -/
def execOutDxAl (s : State) : Host.Outcome State Fault Refusal :=
  complete s <| .ok ((s.portOut s.portNumber (s.reg8 AL)).advance 1)

/-- The names of the colour-ids (R231; names only). -/
def colourName (c : BitVec 3) : String :=
  (["black", "blue", "green", "cyan", "red", "magenta", "yellow", "white"][c.toNat]?).getD ""

end Sys2Proof.Machine
end

