-- ==== Sys2Proof/Machine/Stack.lean ====
section
/-! DEFINITION. Machine/Stack.lean: PUSH, POP and LEAVE (45_stack.md R202 to R206).  None writes a flag. -/

namespace Sys2Proof.Machine

/-- PUSH r32 (R202): the operand is read before the stack pointer moves (D11). -/
def execPushR32 (r : RegNum) (s : State) : Host.Outcome State Fault Refusal :=
  complete s do
    let t ← s.push32 (s.reg r)
    return t.advance 1

/-- POP r32 (R203): the register is written after the stack pointer has moved (D11). -/
def execPopR32 (r : RegNum) (s : State) : Host.Outcome State Fault Refusal :=
  complete s do
    let (v, t) ← s.pop32
    return (t.setReg r v).advance 1

/-- PUSH imm32 (R204). -/
def execPushImm32 (imm : Word) (s : State) : Host.Outcome State Fault Refusal :=
  complete s do
    let t ← s.push32 imm
    return t.advance 5

/-- PUSH imm8 (R205): widened as `PUSH_IMM8_EXT` says (D12). -/
def execPushImm8 (imm : Byte) (s : State) : Host.Outcome State Fault Refusal :=
  complete s do
    let t ← s.push32 (widen s.cfg.pushImm8Ext imm)
    return t.advance 2

/-- LEAVE (R206). -/
def execLeave (s : State) : Host.Outcome State Fault Refusal :=
  complete s do
    let (v, t) ← (s.setReg ESP (s.reg EBP)).pop32
    return (t.setReg EBP v).advance 1

end Sys2Proof.Machine
end

