-- ==== Sys2Proof/Machine/Unimplemented.lean ====
section
/-! DEFINITION. Machine/Unimplemented.lean: the three refused rows of the opcode table, each with the effect the spec gives
it (44_arithmetic_compare.md R184, R186; 40_fetch_decode.md R118). -/

namespace Sys2Proof.Machine

/-- The first group with an unimplemented sub-opcode (R184): fatal before any address is resolved (D9).  The cause names
the group's opcode byte, `83` in the default table (log 25). -/
def execGrp83Unimplemented (m : ModRM) (s : State) : Host.Outcome State Fault Refusal :=
  complete s <| .error (.subopcodeNotImplemented s.cfg.opc.grp83 m.reg)

/-- The second group with an unimplemented sub-opcode (R186); its opcode byte is `FF` in the default table (log 25). -/
def execGrpFFUnimplemented (m : ModRM) (s : State) : Host.Outcome State Fault Refusal :=
  complete s <| .error (.subopcodeNotImplemented s.cfg.opc.grpFF m.reg)

/-- UNRECOGNIZED (R118): the event, and the pc forced to 0, which the next step treats as the halt signal. -/
def execUnrecognized (b : Byte) (s : State) : Host.Outcome State Fault Refusal :=
  complete s <| .ok ((s.emit (.unrecognizedOpcode b s.pc)).setPc 0)

end Sys2Proof.Machine
end

