-- ==== Sys2Proof/Machine/Dispatch.lean ====
section
/-! DEFINITION. Machine/Dispatch.lean: one arm per instruction, each the call of its meaning (40_fetch_decode.md R117). -/

namespace Sys2Proof.Machine

def exec (i : Instr) (s : State) : Host.Outcome State Fault Refusal :=
  match i with
  | .movR32Imm32 r imm => Sys2Proof.Machine.execMovR32Imm32 r imm s
  | .movRm32Imm32 m imm => Sys2Proof.Machine.execMovRm32Imm32 m imm s
  | .movRm8R8 m => Sys2Proof.Machine.execMovRm8R8 m s
  | .movRm32R32 m => Sys2Proof.Machine.execMovRm32R32 m s
  | .movR8Rm8 m => Sys2Proof.Machine.execMovR8Rm8 m s
  | .movR32Rm32 m => Sys2Proof.Machine.execMovR32Rm32 m s
  | .addRm32R32 m => Sys2Proof.Machine.execAddRm32R32 m s
  | .addRm32Imm8 m imm => Sys2Proof.Machine.execAddRm32Imm8 m imm s
  | .subRm32Imm8 m imm => Sys2Proof.Machine.execSubRm32Imm8 m imm s
  | .cmpRm32Imm8 m imm => Sys2Proof.Machine.execCmpRm32Imm8 m imm s
  | .incRm32 m => Sys2Proof.Machine.execIncRm32 m s
  | .incR32 r => Sys2Proof.Machine.execIncR32 r s
  | .pushR32 r => Sys2Proof.Machine.execPushR32 r s
  | .popR32 r => Sys2Proof.Machine.execPopR32 r s
  | .pushImm32 imm => Sys2Proof.Machine.execPushImm32 imm s
  | .pushImm8 imm => Sys2Proof.Machine.execPushImm8 imm s
  | .cmpR32Rm32 m => Sys2Proof.Machine.execCmpR32Rm32 m s
  | .cmpAlImm8 imm => Sys2Proof.Machine.execCmpAlImm8 imm s
  | .cmpEaxImm32 imm => Sys2Proof.Machine.execCmpEaxImm32 imm s
  | .jmpRel8 d => Sys2Proof.Machine.execJmpRel8 d s
  | .jmpRel32 d => Sys2Proof.Machine.execJmpRel32 d s
  | .joRel8 d => Sys2Proof.Machine.execJoRel8 d s
  | .jnoRel8 d => Sys2Proof.Machine.execJnoRel8 d s
  | .jcRel8 d => Sys2Proof.Machine.execJcRel8 d s
  | .jncRel8 d => Sys2Proof.Machine.execJncRel8 d s
  | .jzRel8 d => Sys2Proof.Machine.execJzRel8 d s
  | .jnzRel8 d => Sys2Proof.Machine.execJnzRel8 d s
  | .jsRel8 d => Sys2Proof.Machine.execJsRel8 d s
  | .jnsRel8 d => Sys2Proof.Machine.execJnsRel8 d s
  | .jlRel8 d => Sys2Proof.Machine.execJlRel8 d s
  | .jleRel8 d => Sys2Proof.Machine.execJleRel8 d s
  | .callRel32 d => Sys2Proof.Machine.execCallRel32 d s
  | .ret => Sys2Proof.Machine.execRet s
  | .leave => Sys2Proof.Machine.execLeave s
  | .intImm8 v => Sys2Proof.Machine.execIntImm8 v s
  | .inAlDx => Sys2Proof.Machine.execInAlDx s
  | .outDxAl => Sys2Proof.Machine.execOutDxAl s
  | .grp83Unimplemented m => Sys2Proof.Machine.execGrp83Unimplemented m s
  | .grpFFUnimplemented m => Sys2Proof.Machine.execGrpFFUnimplemented m s
  | .unrecognized b => Sys2Proof.Machine.execUnrecognized b s

end Sys2Proof.Machine
end

