-- ==== Sys2Proof/Machine/Fetch.lean ====
section
/-! DEFINITION. Machine/Fetch.lean: the byte/field reader over memory, the fetch of an instruction, the body of the step
(40_fetch_decode.md R110 to R117), and the placing of bytes where the next fetch reads. -/

namespace Sys2Proof.Machine

/-- `Code8(k)` (R111): the byte at `ia + k`, the address modulo `2^32`. -/
def State.code8 (s : State) (k : Nat) : Except FatalCause Byte := s.memRead8 (s.pc + BitVec.ofNat 32 k) .fetch

/-- `Code32(k)` (R111). -/
def State.code32 (s : State) (k : Nat) : Except FatalCause Word := s.memRead32 (s.pc + BitVec.ofNat 32 k) .fetch

/-- The instruction at the program counter under the opcode assignment of the parameters, or the first fetch fault its decoding meets (R91, R111, R131, R256). -/
def State.fetch (s : State) : Except FatalCause Instr := decodeWith s.cfg.opc s.code8 s.code32

/-- `Step()` of R116, `run` being the execution of a decoded instruction.  The halt tests come before every opcode fetch
(D6).  Where the run has ended no step exists (R33): the state stays as it is (log 1). -/
def stepWith (run : Instr → State → Host.Outcome State Fault Refusal) (s : State) : Host.Outcome State Fault Refusal :=
  match s.runState with
  | .halted => .next s
  | .fatal => .next s
  | .running =>
    if s.pc = 0 then .next (s.halt .pcZero)
    else if s.cfg.memSize ≤ s.pc.toNat then .next (s.halt .pcBound)
    else
      match s.fetch with
      | .error c => .next (s.raiseFatal c)
      | .ok i => run i s

/-- The bytes `bs` placed at `pc`, `pc + 1`, ... (modulo `2^32`), those that fall inside memory: the loader's work (R280),
done where the next fetch reads. -/
def State.placeAtPc (s : State) (bs : List Byte) : State :=
  { s with mem := (bs.zipIdx).foldl (fun m bk =>
      let a := (s.pc + BitVec.ofNat 32 bk.2).toNat
      if a < s.cfg.memSize then Memory.write m a bk.1 else m) s.mem }

end Sys2Proof.Machine
end

