-- ==== Sys2Proof/Machine/Step.lean ====
section
/-! DEFINITION. Machine/Step.lean: one step of the block (40_fetch_decode.md R116), and a state whose next fetch reads a
given instruction. -/

namespace Sys2Proof.Machine

/-- `Step()` of R116, executing what it fetches by `exec`. -/
def step (s : State) : Host.Outcome State Fault Refusal := stepWith exec s

/-- `s` with the instruction whose bits spec/opcode_table.json numbers `w` placed where the next step fetches (log 9). -/
def State.withFetchWord (s : State) (nbits w : Nat) : State := s.placeAtPc (tableBytes nbits w)

end Sys2Proof.Machine
end

