-- ==== Sys2Proof/WellFormed.lean ====
section
/-! DEFINITION. WellFormed.lean: which terms of Syntax.lean are encodings of the hardware.  Every check is a Bool, so
that the smoke tests of Tests/Slice0.lean run it on an ill-formed term each. -/

namespace Sys2Proof

/-- The displacement is one its field can hold: any word in 4 bytes, a sign-extended byte in 1, 0 when absent (R130). -/
def ModRM.dispFits (m : ModRM) : Bool :=
  match dispSize m.mod m.rm with
  | 4 => true
  | 1 => m.disp == (m.disp.setWidth 8).signExtend 32
  | _ => m.disp == 0

/-- A descriptor that `ParseModRM` can produce (R130, R131). -/
def ModRM.wf (m : ModRM) : Bool := (m.sib.isSome == m.hasSib) && m.dispFits

/-- The sub-opcodes of the first group that are implemented, ADD, SUB and CMP: `/0`, `/5` and `/7` by default (R90, R93). -/
def grp83Implemented (t : OpcodeTable) (reg : RegNum) : Bool := reg == t.addSub || reg == t.subSub || reg == t.cmpSub

/-- The 193 first bytes of R94, range by range as the rule lists them: those the default table leaves unrecognized. -/
def unrecognizedFirstByte (b : Byte) : Bool :=
  let n := b.toNat
  n == 0x00 || (0x02 ≤ n && n ≤ 0x3A) || n == 0x3E || n == 0x3F || (0x48 ≤ n && n ≤ 0x4F) || (0x60 ≤ n && n ≤ 0x67)
    || n == 0x69 || (0x6B ≤ n && n ≤ 0x6F) || n == 0x76 || n == 0x77 || n == 0x7A || n == 0x7B || n == 0x7D || n == 0x7F
    || (0x80 ≤ n && n ≤ 0x82) || (0x84 ≤ n && n ≤ 0x87) || (0x8C ≤ n && n ≤ 0xB7) || (0xC0 ≤ n && n ≤ 0xC2)
    || (0xC4 ≤ n && n ≤ 0xC6) || n == 0xC8 || (0xCA ≤ n && n ≤ 0xCC) || (0xCE ≤ n && n ≤ 0xE7) || n == 0xEA || n == 0xED
    || (0xEF ≤ n && n ≤ 0xFE)

/-- A term that is an instruction of the hardware whose opcode assignment is `t`: its descriptor is one the decoder
produces, a group row carries its own sub-opcode in `reg` (R90 column `/n`, R93), and an unrecognized byte is one that
R91 does not accept (R94). -/
def Instr.wf (t : OpcodeTable) : Instr → Bool
  | .movR32Imm32 _ _ => true
  | .movRm32Imm32 m _ => m.wf
  | .movRm8R8 m => m.wf
  | .movRm32R32 m => m.wf
  | .movR8Rm8 m => m.wf
  | .movR32Rm32 m => m.wf
  | .addRm32R32 m => m.wf
  | .addRm32Imm8 m _ => m.wf && m.reg == t.addSub
  | .subRm32Imm8 m _ => m.wf && m.reg == t.subSub
  | .cmpRm32Imm8 m _ => m.wf && m.reg == t.cmpSub
  | .incRm32 m => m.wf && m.reg == 0
  | .incR32 _ => true
  | .pushR32 _ => true
  | .popR32 _ => true
  | .pushImm32 _ => true
  | .pushImm8 _ => true
  | .cmpR32Rm32 m => m.wf
  | .cmpAlImm8 _ => true
  | .cmpEaxImm32 _ => true
  | .jmpRel8 _ => true
  | .jmpRel32 _ => true
  | .joRel8 _ => true
  | .jnoRel8 _ => true
  | .jcRel8 _ => true
  | .jncRel8 _ => true
  | .jzRel8 _ => true
  | .jnzRel8 _ => true
  | .jsRel8 _ => true
  | .jnsRel8 _ => true
  | .jlRel8 _ => true
  | .jleRel8 _ => true
  | .callRel32 _ => true
  | .ret => true
  | .leave => true
  | .intImm8 _ => true
  | .inAlDx => true
  | .outDxAl => true
  | .grp83Unimplemented m => m.wf && !grp83Implemented t m.reg
  | .grpFFUnimplemented m => m.wf && m.reg != 0
  | .unrecognized b => (lookup t b).isNone

end Sys2Proof
end

