-- ==== Sys2Proof/Safety.lean ====
section
/-! DEFINITION. Safety.lean: the terms in which claims speak: what is unchanged between two states, when an operand is
accessible, what a store leaves, and the invariant every step keeps. -/

namespace Sys2Proof.Safety

open Sys2Proof.Machine

/-- The parameters and the run state (run_state, halt_cause, fatal_cause, fatal_info) of `t` are those of `s`. -/
def SameRun (s t : State) : Prop :=
  t.cfg = s.cfg ∧ t.runState = s.runState ∧ t.haltCause = s.haltCause ∧ t.fatal = s.fatal

/-- The event sequence and the console input of `t` are those of `s`. -/
def SameIo (s t : State) : Prop :=
  t.events = s.events ∧ t.consoleIn = s.consoleIn ∧ t.consolePolls = s.consolePolls

/-- Every register holds in `t` what it held in `s`. -/
def SameRegs (s t : State) : Prop := ∀ q, t.reg q = s.reg q

/-- Every byte of memory reads in `t` what it read in `s`. -/
def SameMem (s t : State) : Prop := ∀ a, t.byteAt a = s.byteAt a

/-- Register `r` holds `v` in `t`, every other register what it held in `s`. -/
def OnlyReg (r : RegNum) (v : Word) (s t : State) : Prop := t.reg r = v ∧ ∀ q, q ≠ r → t.reg q = s.reg q

/-- The lowest bit of byte view `j` in the register that owns it (R23). -/
def viewLow (j : RegNum) : Nat := if j.toNat ≤ 3 then 0 else 8

/-- The eight bits of byte view `j` hold `v` in `t`; every other bit of every register is that of `s`. -/
def OnlyReg8 (j : RegNum) (v : Byte) (s t : State) : Prop :=
  ∀ (q : RegNum) (i : Nat), (t.reg q).getLsbD i =
    if q = viewOwner j ∧ viewLow j ≤ i ∧ i < viewLow j + 8 then v.getLsbD (i - viewLow j) else (s.reg q).getLsbD i

/-- The four bytes from address `a` read `v` in `t`, lowest byte first; every other byte reads what it read in `s`. -/
def Stored32 (a : Word) (v : Word) (s t : State) : Prop :=
  (∀ k, k < 4 → t.byteAt (a.toNat + k) = v.extractLsb' (8 * k) 8) ∧
    ∀ b, (b < a.toNat ∨ a.toNat + 4 ≤ b) → t.byteAt b = s.byteAt b

/-- The byte at address `a` reads `v` in `t`; every other byte reads what it read in `s`. -/
def Stored8 (a : Word) (v : Byte) (s t : State) : Prop :=
  t.byteAt a.toNat = v ∧ ∀ b, b ≠ a.toNat → t.byteAt b = s.byteAt b

/-- The 32-bit value that the four bytes from address `a` hold, lowest byte first (R51). -/
def value32 (s : State) (a : Word) : Word :=
  ofLE (s.byteAt a.toNat) (s.byteAt (a.toNat + 1)) (s.byteAt (a.toNat + 2)) (s.byteAt (a.toNat + 3))

/-- The r/m operand of `n` bytes exists: a register, or a memory operand with no SIB byte whose bytes are all below the
memory bound. -/
def Accessible (n : Nat) (m : ModRM) (s : State) : Prop :=
  m.mod = 3 ∨ ∃ a, s.effAddr m = .ok a ∧ a.toNat + n ≤ s.cfg.memSize

/-- `v` is the value of the 32-bit r/m operand in `s`, which exists. -/
def Operand32 (m : ModRM) (s : State) (v : Word) : Prop :=
  (m.mod = 3 ∧ v = s.reg m.rm) ∨ ∃ a, s.effAddr m = .ok a ∧ a.toNat + 4 ≤ s.cfg.memSize ∧ v = value32 s a

/-- `v` is the value of the 8-bit r/m operand in `s`, which exists. -/
def Operand8 (m : ModRM) (s : State) (v : Byte) : Prop :=
  (m.mod = 3 ∧ v = s.reg8 m.rm) ∨ ∃ a, s.effAddr m = .ok a ∧ a.toNat + 1 ≤ s.cfg.memSize ∧ v = s.byteAt a.toNat

/-- `t` holds `v` in the 32-bit r/m operand that `s` addresses, and no other register or byte of memory differs. -/
def WroteRM32 (m : ModRM) (v : Word) (s t : State) : Prop :=
  (m.mod = 3 → OnlyReg m.rm v s t ∧ SameMem s t) ∧
    (m.mod ≠ 3 → SameRegs s t ∧ ∀ a, s.effAddr m = .ok a → Stored32 a v s t)

/-- `t` holds `v` in the 8-bit r/m operand that `s` addresses, and nothing else of registers and memory differs. -/
def WroteRM8 (m : ModRM) (v : Byte) (s t : State) : Prop :=
  (m.mod = 3 → OnlyReg8 m.rm v s t ∧ SameMem s t) ∧
    (m.mod ≠ 3 → SameRegs s t ∧ ∀ a, s.effAddr m = .ok a → Stored8 a v s t)

/-- `t` is `s` after a fatal stop for cause `c` (R252, R253): every field but the status fields and the event sequence is
that of `s`. -/
def FatalFrom (c : FatalCause) (s t : State) : Prop :=
  t.runState = .fatal ∧ t.fatal = some c ∧ t.events = s.events ++ [.fatalStop c] ∧ t.haltCause = s.haltCause ∧
    t.cfg = s.cfg ∧ t.pc = s.pc ∧ t.regs = s.regs ∧ t.flags = s.flags ∧ t.mem = s.mem ∧
    t.consoleIn = s.consoleIn ∧ t.consolePolls = s.consolePolls

/-- A fatal cause that a run with parameters `c` can record (R251): `EA_MODE3` cannot be reached (R134), a SIB form has
`mod ≠ 3`, an unimplemented sub-opcode is one of R93 under the opcode of its group, and a range fault is an access of 1 or
4 bytes that passes the bound. -/
def fatalLegal (c : Config) : FatalCause → Bool
  | .sibNotImplemented mod => mod != 3
  | .eaMode3 _ => false
  | .subopcodeNotImplemented op reg =>
      (op == c.opc.grp83 && !grp83Implemented c.opc reg) || (op == c.opc.grpFF && reg != 0)
  | .memRange a n _ => (n == 1 || n == 4) && decide (c.memSize < a.toNat + n)

/-- The status fields agree with one another and with `pc` (R33 to R35, R116). -/
def StatusOk (s : State) : Prop :=
  match s.runState with
  | .running => s.haltCause = .none ∧ s.fatal = none
  | .halted => s.fatal = none ∧
      ((s.haltCause = .pcZero ∧ s.pc = 0) ∨ (s.haltCause = .pcBound ∧ s.cfg.memSize ≤ s.pc.toNat))
  | .fatal => s.haltCause = .none ∧ ∃ c, s.fatal = some c ∧ fatalLegal s.cfg c = true

/-- The invariant of the machine: memory keeps its canonical form and lies below the bound, and the status fields agree. -/
def Inv (s : State) : Prop := Memory.wf s.mem ∧ Memory.below s.mem s.cfg.memSize ∧ StatusOk s

end Sys2Proof.Safety
end

