-- ==== Sys2Proof/Certificates/Slice0/Obligations.lean ====
section
/-! DEFINITION. Certificates/Slice0/Obligations.lean: what the model is claimed to do, rule by rule of spec/.  An instruction's
statement says where it completes, its result and its frame at once: `SameRun`, `SameIo`, `SameMem`, `SameRegs` and
the `flags` clause are what it leaves alone. -/

open Sys2Proof Sys2Proof.Machine Sys2Proof.Safety

/-! ### Encoding -/

/-- Under every legal opcode assignment (R8 `OPC`), decoding the bytes of a well-formed instruction, whatever follows them,
gives it back with every operand (R80 to R96).  What makes an assignment legal is the model's reading (log 24). -/
def Obligations.EncodeThenDecodeIsIdentity : Prop :=
  ∀ (tab : OpcodeTable) (i : Instr) (rest : List Byte), tab.legal = true → i.wf tab = true →
    decode tab (encode tab i ++ rest) = .ok i

/-- Under every opcode assignment, what is decoded is well-formed, and its encoding is the very bytes it was decoded from
(R80 to R96). -/
def Obligations.DecodeThenEncodeIsIdentity : Prop :=
  ∀ (tab : OpcodeTable) (bs : List Byte) (i : Instr), decode tab bs = .ok i →
    i.wf tab = true ∧ i.length ≤ bs.length ∧ encode tab i = bs.take i.length

/-- Decoding refuses only a list that ends inside a field, and no field ends past the eleventh byte (R80, R111). -/
def Obligations.OnlyTruncationIsRefused : Prop :=
  ∀ (tab : OpcodeTable) (bs : List Byte) (e : DecodeError), decode tab bs = .error e →
    ∃ k n, e = .truncated k n ∧ (n = 1 ∨ n = 4) ∧ bs.length < k + n ∧ k + n ≤ 11

/-- Under the default assignment a first byte is unrecognized exactly when it is in the list of R94, of which there are 193;
under every assignment the instruction carries that byte, and nothing after it is looked at. -/
def Obligations.UnrecognizedBytesAreTheListed : Prop :=
  (∀ (b : Byte) (rest : List Byte),
      (∃ c, decode .ia32 (b :: rest) = .ok (.unrecognized c)) ↔ unrecognizedFirstByte b = true) ∧
    (∀ (tab : OpcodeTable) (b c : Byte) (rest : List Byte), decode tab (b :: rest) = .ok (.unrecognized c) →
      c = b ∧ ∀ other, decode tab (b :: other) = .ok (.unrecognized b)) ∧
    ((List.range 256).filter fun n => unrecognizedFirstByte (BitVec.ofNat 8 n)).length = 193

/-- The default assignment of R8 is a legal one, and under it worked encodings of R98 and of the instruction rules decode to
the instructions they stand for. -/
def Obligations.WorkedEncodingsDecode : Prop :=
  Config.reference.opc.legal = true ∧ decode Config.reference.opc [0xB8, 0x78, 0x56, 0x34, 0x12] = .ok (.movR32Imm32 EAX 0x12345678) ∧
    decode Config.reference.opc [0x6A, 0x2A] = .ok (.pushImm8 0x2A) ∧
    decode Config.reference.opc [0x89, 0xE5] = .ok (.movRm32R32 ⟨3, ESP, EBP, none, 0⟩) ∧
    decode Config.reference.opc [0x83, 0xE9, 0x01] = .ok (.subRm32Imm8 ⟨3, 5, ECX, none, 0⟩ 1) ∧
    decode Config.reference.opc [0x8B, 0x45, 0xFC] = .ok (.movR32Rm32 ⟨1, EAX, EBP, none, 0xFFFFFFFC⟩) ∧
    decode Config.reference.opc [0x75, 0xF9] = .ok (.jnzRel8 0xF9) ∧ decode Config.reference.opc [0xEC] = .ok .inAlDx ∧
    decode Config.reference.opc [0xF4] = .ok (.unrecognized 0xF4)

/-! ### The step -/

/-- When the bytes at the program counter decode, under the state's opcode assignment, to an instruction, a step of the
running machine is its execution, with nothing around it (R110, R111, R116). -/
def Obligations.StepRunsTheInstructionAtPc : Prop :=
  ∀ (s : State) (bs : List Byte) (i : Instr),
    s.runState = .running → s.cfg.wf = true → s.pc ≠ 0 → s.pc.toNat + bs.length ≤ s.cfg.memSize →
    (∀ k, (h : k < bs.length) → s.byteAt (s.pc.toNat + k) = bs[k]) → decode s.cfg.opc bs = .ok i →
    i.wf s.cfg.opc = true ∧ step s = exec i s

/-- The halt tests come before any fetch: at `pc = 0` and at `pc ≥ MEM_SIZE` the step halts, changing the status fields
and the event sequence only (R116). -/
def Obligations.StepHaltsAtZeroAndAtTheBound : Prop :=
  ∀ s : State, s.runState = .running →
    (s.pc = 0 → step s = .next { s with runState := .halted, haltCause := .pcZero, events := s.events ++ [.halted .pcZero] }) ∧
    (s.pc ≠ 0 → s.cfg.memSize ≤ s.pc.toNat →
      step s = .next { s with runState := .halted, haltCause := .pcBound, events := s.events ++ [.halted .pcBound] })

/-- HALTED and FATAL are absorbing (R33).  That the model's step answers the unchanged state, where R116 says that no step
exists, is the model's choice (log 1). -/
def Obligations.StoppedStatesAreAbsorbing : Prop :=
  ∀ s : State, s.runState ≠ .running → step s = .next s

/-- An instruction that runs past the memory bound is fatal, not a halt: where `bs` are the bytes from the pc up to the bound
and they end inside a field of `n` bytes at offset `k`, the step takes a range fault of kind fetch for that field, and
changes nothing else (R55, R111, R252, R256).  Below the whole address space the field's address does not wrap. -/
def Obligations.FetchPastTheBoundIsFatal : Prop :=
  ∀ (s : State) (bs : List Byte) (k n : Nat),
    s.runState = .running → 1 ≤ s.cfg.memSize → s.cfg.memSize < 2 ^ 32 → s.pc ≠ 0 → s.pc.toNat < s.cfg.memSize →
    s.pc.toNat + bs.length = s.cfg.memSize →
    (∀ j, (h : j < bs.length) → s.byteAt (s.pc.toNat + j) = bs[j]) → decode s.cfg.opc bs = .error (.truncated k n) →
    s.cfg.memSize < (s.pc + BitVec.ofNat 32 k).toNat + n ∧
      ∃ t, step s = .next t ∧ FatalFrom (.memRange (s.pc + BitVec.ofNat 32 k) n .fetch) s t

/-- Fatal stops are precise (R253): a step that enters FATAL changes the status fields and adds one FatalStop event. -/
def Obligations.FatalStepsArePrecise : Prop :=
  ∀ s t : State, s.runState = .running → step s = .next t → t.runState = .fatal → ∃ c, FatalFrom c s t

/-- The run halts only where one of the two tests holds (R116, R120), and then nothing changes but run_state, halt_cause and the
one Halted event: every other field is that of `s`. -/
def Obligations.HaltsOnlyAtZeroOrBound : Prop :=
  ∀ s t : State, s.runState = .running → step s = .next t → t.runState = .halted →
    (s.pc = 0 ∧ t = { s with runState := .halted, haltCause := .pcZero, events := s.events ++ [.halted .pcZero] }) ∨
      (s.pc ≠ 0 ∧ s.cfg.memSize ≤ s.pc.toNat ∧
        t = { s with runState := .halted, haltCause := .pcBound, events := s.events ++ [.halted .pcBound] })

/-- Every step of every state answers a next state: no instruction is refused and none ends in a fault.  Four choices of the
model stand in it: a fatal stop is a next state (log 10); a stopped machine answers its own state (log 1); an IN that waits
for a byte, whose step U9 calls not enabled, answers a state in which only the poll counter moved (log 6); and `exec`
answers on terms that no decoding gives (log 16). -/
def Obligations.EveryStepAnswersANextState : Prop :=
  (∀ (i : Instr) (s : State), ∃ t, exec i s = .next t) ∧ ∀ s : State, ∃ t, step s = .next t

/-! ### Invariants and whole-machine rules -/

/-- Every step keeps the invariant: memory in canonical form below the bound, status fields in agreement, and no fatal
cause but those R251 allows (`EA_MODE3` is unreachable, R134). -/
def Obligations.EveryStepKeepsTheMachineInvariant : Prop :=
  ∀ s t : State, Inv s → step s = .next t → Inv t

/-- The invariant holds at reset. -/
def Obligations.ResetMeetsTheMachineInvariant : Prop := Inv State.reset

/-- No step changes a parameter (R8: fixed for the hardware). -/
def Obligations.ParametersNeverChange : Prop :=
  ∀ s t : State, step s = .next t → t.cfg = s.cfg

/-- The event sequence only grows, by at most one event a step (R237). -/
def Obligations.EventsAreAppendedOneAtATime : Prop :=
  ∀ s t : State, step s = .next t → ∃ es, t.events = s.events ++ es ∧ es.length ≤ 1

/-- Writers and readers of the flags (R29): SUB and the four CMP forms write all four by `SubFlags` and nothing else writes
any; only the ten conditional jumps read them.  Any other instruction, started with flags `f` instead, answers the same state
(a writer of the flags that completes) or that state with flags `f` (all else). -/
def Obligations.FlagsHaveTheListedWritersAndReaders : Prop :=
  (∀ (i : Instr) (s t : State), exec i s = .next t → t.flags ≠ s.flags →
    (∃ a b, t.flags = subFlags a b) ∧
      ((∃ m k, i = .subRm32Imm8 m k) ∨ (∃ m k, i = .cmpRm32Imm8 m k) ∨ (∃ m, i = .cmpR32Rm32 m) ∨
        (∃ k, i = .cmpAlImm8 k) ∨ ∃ k, i = .cmpEaxImm32 k)) ∧
  ∀ (i : Instr) (s t : State) (f : Flags), exec i s = .next t →
    exec i (s.setFlags f) = .next t ∨ exec i (s.setFlags f) = .next (t.setFlags f) ∨
      ∃ d, i = .joRel8 d ∨ i = .jnoRel8 d ∨ i = .jcRel8 d ∨ i = .jncRel8 d ∨ i = .jzRel8 d ∨ i = .jnzRel8 d ∨
        i = .jsRel8 d ∨ i = .jnsRel8 d ∨ i = .jlRel8 d ∨ i = .jleRel8 d

/-! ### Flags -/

/-- The flag rule as R151 states it. -/
def Obligations.SubtractionFlagRule : Prop :=
  ∀ a b : Word,
    ((subFlags a b).CF = true ↔ a.toNat < b.toNat) ∧ ((subFlags a b).ZF = true ↔ a = b) ∧
    ((subFlags a b).SF = true ↔ (a - b).msb = true) ∧
    ((subFlags a b).OF = true ↔ a.msb ≠ b.msb ∧ (a - b).msb ≠ a.msb)

/-- The consequences R152 lists: overflow is a signed difference outside 32 bits, "less" and "less or equal" are the signed
comparisons. -/
def Obligations.SubtractionFlagsCompareSigned : Prop :=
  ∀ a b : Word,
    ((subFlags a b).OF = true ↔ a.toInt - b.toInt < -2 ^ 31 ∨ 2 ^ 31 - 1 < a.toInt - b.toInt) ∧
    (condHolds (subFlags a b) .L = true ↔ a.toInt < b.toInt) ∧
    (condHolds (subFlags a b) .LE = true ↔ a.toInt ≤ b.toInt) ∧
    (((subFlags a b).CF || (subFlags a b).ZF) = true ↔ a.toNat ≤ b.toNat) ∧
    (subFlags a 0).CF = false ∧ (subFlags a 0).OF = false ∧
    subFlags a a = { CF := false, ZF := true, SF := false, OF := false }

/-- CMP AL, imm8 under either setting of its parameter (R189): ZF and CF are the unsigned byte comparison, OF is 0, and SF
is the signed comparison under `sign` and CF under `zero`. -/
def Obligations.CompareAlFlagsUnderBothExtensions : Prop :=
  ∀ (e : Ext) (al imm : Byte),
    let f := subFlags (widen e al) (widen e imm)
    (f.ZF = true ↔ al = imm) ∧ (f.CF = true ↔ al.toNat < imm.toNat) ∧ f.OF = false ∧
      (e = .sign → (f.SF = true ↔ al.toInt < imm.toInt)) ∧ (e = .zero → f.SF = f.CF)

/-! ### Memory and registers -/

/-- Round trip (R54): a value written in range reads back from the same offset, at both widths. -/
def Obligations.WriteThenReadReturnsTheValue : Prop :=
  ∀ (s : State) (a : Word) (kind : AccessKind),
    (∀ v : Word, a.toNat + 4 ≤ s.cfg.memSize → ∃ t, s.memWrite32 a v = .ok t ∧ t.memRead32 a kind = .ok v) ∧
    (∀ v : Byte, a.toNat + 1 ≤ s.cfg.memSize → ∃ t, s.memWrite8 a v = .ok t ∧ t.memRead8 a kind = .ok v)

/-- A 32-bit store puts the least significant byte lowest and leaves every other byte, register, flag and field (R51, R53). -/
def Obligations.StoreIsLittleEndianAndLocal : Prop :=
  ∀ (s : State) (a v : Word), a.toNat + 4 ≤ s.cfg.memSize →
    ∃ t, s.memWrite32 a v = .ok t ∧ Stored32 a v s t ∧
      t = { s with mem := t.mem } ∧ ∀ (k : Nat) (kind : AccessKind), k < 4 → (a + BitVec.ofNat 32 k).toNat = a.toNat + k →
        t.memRead8 (a + BitVec.ofNat 32 k) kind = .ok (v.extractLsb' (8 * k) 8)

/-- An access is fatal exactly when a byte of it is at or past the bound, on the unbounded sum, for every width and kind
(R52, R53, R55). -/
def Obligations.RangeFaultsExactlyPastTheBound : Prop :=
  ∀ (s : State) (a : Word) (kind : AccessKind) (v : Word) (b : Byte),
    (s.cfg.memSize < a.toNat + 1 → s.memRead8 a kind = .error (.memRange a 1 kind) ∧ s.memWrite8 a b = .error (.memRange a 1 .write)) ∧
    (a.toNat + 1 ≤ s.cfg.memSize → s.memRead8 a kind = .ok (s.byteAt a.toNat) ∧ ∃ t, s.memWrite8 a b = .ok t) ∧
    (s.cfg.memSize < a.toNat + 4 → s.memRead32 a kind = .error (.memRange a 4 kind) ∧ s.memWrite32 a v = .error (.memRange a 4 .write)) ∧
    (a.toNat + 4 ≤ s.cfg.memSize → s.memRead32 a kind = .ok (value32 s a) ∧ ∃ t, s.memWrite32 a v = .ok t)

/-- Byte views alias the first four registers (R23): a view reads its eight bits, and writing it changes those eight bits
and no other bit of any register. -/
def Obligations.ByteViewsAliasTheirRegister : Prop :=
  ∀ (s : State) (j : RegNum) (v : Byte),
    (∀ i, i < 8 → (s.reg8 j).getLsbD i = (s.reg (viewOwner j)).getLsbD (viewLow j + i)) ∧ (viewOwner j).toNat ≤ 3 ∧
      OnlyReg8 j v s (s.setReg8 j v) ∧ (s.setReg8 j v).reg8 j = v ∧
      s.setReg8 j v = { s with regs := (s.setReg8 j v).regs }

/-! ### Addressing -/

/-- The effective-address table of R132, cell by cell. -/
def Obligations.EffectiveAddressTable : Prop :=
  ∀ (s : State) (m : ModRM),
    (m.mod = 0 → (m.rm = 4 → s.effAddr m = .error (.sibNotImplemented 0)) ∧ (m.rm = 5 → s.effAddr m = .ok m.disp) ∧
      (m.rm ≠ 4 → m.rm ≠ 5 → s.effAddr m = .ok (s.reg m.rm))) ∧
    (m.mod = 1 → (m.rm = 4 → s.effAddr m = .error (.sibNotImplemented 1)) ∧ (m.rm = 5 → s.effAddr m = .ok (s.reg EBP + m.disp)) ∧
      (m.rm ≠ 4 → s.effAddr m = .ok (s.reg m.rm + m.disp))) ∧
    (m.mod = 2 → (m.rm = 4 → s.effAddr m = .error (.sibNotImplemented 2)) ∧ (m.rm = 5 → s.effAddr m = .ok (s.reg EBP + m.disp)) ∧
      (m.rm ≠ 4 → s.effAddr m = .ok (s.reg m.rm + m.disp))) ∧
    (m.mod = 3 → s.effAddr m = .error (.eaMode3 m.rm))

/-- The worked example of R135: mode 1, base/mem 0, displacement byte 0xFE, base value 100, address 98.  It speaks of the
descriptor alone, after whatever opcode byte. -/
def Obligations.NegativeDisplacementExample : Prop :=
  ∀ (s : State) (op : Byte) (reg : RegNum) (rest : List Byte), s.reg 0 = 100 →
    let bs : List Byte := [op, (1#2 ++ reg ++ 0#3 : Byte), 0xFE] ++ rest
    parseModRM (listCode8 bs) (listCode32 bs) = .ok ⟨1, reg, 0, none, 0xFFFFFFFE⟩ ∧
      s.effAddr ⟨1, reg, 0, none, 0xFFFFFFFE⟩ = .ok 98

/-- Every instruction with a memory operand that needs a SIB byte stops with SIB_NOT_IMPLEMENTED, precisely (R95, R133). -/
def Obligations.SibFormsAreFatal : Prop :=
  ∀ (s : State) (m : ModRM) (i : Instr), m.mod ≠ 3 → m.rm = 4 →
    ((∃ v, i = .movRm32Imm32 m v) ∨ i = .movRm8R8 m ∨ i = .movRm32R32 m ∨ i = .movR8Rm8 m ∨ i = .movR32Rm32 m ∨
      i = .addRm32R32 m ∨ (∃ k, i = .addRm32Imm8 m k) ∨ (∃ k, i = .subRm32Imm8 m k) ∨ (∃ k, i = .cmpRm32Imm8 m k) ∨
      i = .incRm32 m ∨ i = .cmpR32Rm32 m) →
    ∃ t, exec i s = .next t ∧ FatalFrom (.sibNotImplemented m.mod) s t

/-- A memory operand past the bound stops the instruction with MEM_RANGE, of kind read where the operand is read first and
of kind write where it is only written (R251, R256). -/
def Obligations.OperandsPastTheBoundAreFatal : Prop :=
  ∀ (s : State) (m : ModRM) (a : Word) (i : Instr), s.effAddr m = .ok a →
    (s.cfg.memSize < a.toNat + 4 →
      (i = .movR32Rm32 m ∨ i = .addRm32R32 m ∨ (∃ k, i = .addRm32Imm8 m k) ∨ (∃ k, i = .subRm32Imm8 m k) ∨
        (∃ k, i = .cmpRm32Imm8 m k) ∨ i = .incRm32 m ∨ i = .cmpR32Rm32 m) →
      ∃ t, exec i s = .next t ∧ FatalFrom (.memRange a 4 .read) s t) ∧
    (s.cfg.memSize < a.toNat + 4 → ((∃ v, i = .movRm32Imm32 m v) ∨ i = .movRm32R32 m) →
      ∃ t, exec i s = .next t ∧ FatalFrom (.memRange a 4 .write) s t) ∧
    (s.cfg.memSize < a.toNat + 1 → i = .movR8Rm8 m → ∃ t, exec i s = .next t ∧ FatalFrom (.memRange a 1 .read) s t) ∧
    (s.cfg.memSize < a.toNat + 1 → i = .movRm8R8 m → ∃ t, exec i s = .next t ∧ FatalFrom (.memRange a 1 .write) s t)

/-! ### Data movement -/

/-- MOV r32, imm32 (R170): the register takes the immediate; the pc advances 5. -/
def Obligations.MovR32Imm32LoadsTheRegister : Prop :=
  ∀ (r : RegNum) (imm : Word) (s : State), ∃ t, exec (.movR32Imm32 r imm) s = .next t ∧
    OnlyReg r imm s t ∧ t.pc = s.pc + 5 ∧ t.flags = s.flags ∧ SameMem s t ∧ SameRun s t ∧ SameIo s t

/-- MOV r/m32, imm32 and MOV r/m32, r32 (R171, R173): the operand takes the immediate or the source register. -/
def Obligations.MovToRm32WritesTheOperand : Prop :=
  ∀ (m : ModRM) (s : State), Accessible 4 m s →
    (∀ imm, ∃ t, exec (.movRm32Imm32 m imm) s = .next t ∧ WroteRM32 m imm s t ∧
      t.pc = s.pc + BitVec.ofNat 32 (5 + m.len) ∧ t.flags = s.flags ∧ SameRun s t ∧ SameIo s t) ∧
    ∃ t, exec (.movRm32R32 m) s = .next t ∧ WroteRM32 m (s.reg m.reg) s t ∧
      t.pc = s.pc + BitVec.ofNat 32 (1 + m.len) ∧ t.flags = s.flags ∧ SameRun s t ∧ SameIo s t

/-- MOV r/m8, r8 (R172): eight bits move, and only eight. -/
def Obligations.MovToRm8WritesOneByte : Prop :=
  ∀ (m : ModRM) (s : State), Accessible 1 m s →
    ∃ t, exec (.movRm8R8 m) s = .next t ∧ WroteRM8 m (s.reg8 m.reg) s t ∧
      t.pc = s.pc + BitVec.ofNat 32 (1 + m.len) ∧ t.flags = s.flags ∧ SameRun s t ∧ SameIo s t

/-- MOV r32, r/m32 (R175): the register takes the operand; the address uses the old register values. -/
def Obligations.MovFromRm32LoadsTheRegister : Prop :=
  ∀ (m : ModRM) (s : State) (v : Word), Operand32 m s v →
    ∃ t, exec (.movR32Rm32 m) s = .next t ∧ OnlyReg m.reg v s t ∧
      t.pc = s.pc + BitVec.ofNat 32 (1 + m.len) ∧ t.flags = s.flags ∧ SameMem s t ∧ SameRun s t ∧ SameIo s t

/-- MOV r8, r/m8 (R174): the byte view takes the byte, not extended. -/
def Obligations.MovFromRm8LoadsTheByteView : Prop :=
  ∀ (m : ModRM) (s : State) (v : Byte), Operand8 m s v →
    ∃ t, exec (.movR8Rm8 m) s = .next t ∧ OnlyReg8 m.reg v s t ∧
      t.pc = s.pc + BitVec.ofNat 32 (1 + m.len) ∧ t.flags = s.flags ∧ SameMem s t ∧ SameRun s t ∧ SameIo s t

/-! ### Arithmetic and compare -/

/-- ADD r/m32, r32 and ADD r/m32, imm8 (R180, R181): the operand takes the sum modulo `2^32`, and no flag is written. -/
def Obligations.AddWritesTheSumAndNoFlag : Prop :=
  ∀ (m : ModRM) (s : State) (a : Word), Operand32 m s a →
    (∃ t, exec (.addRm32R32 m) s = .next t ∧ WroteRM32 m (a + s.reg m.reg) s t ∧
      t.pc = s.pc + BitVec.ofNat 32 (1 + m.len) ∧ t.flags = s.flags ∧ SameRun s t ∧ SameIo s t) ∧
    ∀ imm : Byte, ∃ t, exec (.addRm32Imm8 m imm) s = .next t ∧ WroteRM32 m (a + imm.signExtend 32) s t ∧
      t.pc = s.pc + BitVec.ofNat 32 (2 + m.len) ∧ t.flags = s.flags ∧ SameRun s t ∧ SameIo s t

/-- SUB r/m32, imm8 (R182): the operand takes the difference and the flags follow the flag rule on the old value. -/
def Obligations.SubWritesTheDifferenceAndFlags : Prop :=
  ∀ (m : ModRM) (s : State) (a : Word) (imm : Byte), Operand32 m s a →
    ∃ t, exec (.subRm32Imm8 m imm) s = .next t ∧ WroteRM32 m (a - imm.signExtend 32) s t ∧
      t.pc = s.pc + BitVec.ofNat 32 (2 + m.len) ∧ t.flags = subFlags a (imm.signExtend 32) ∧ SameRun s t ∧ SameIo s t

/-- INC r/m32 (R185): the operand takes its value plus 1 modulo `2^32`, and no flag is written. -/
def Obligations.IncRm32AddsOneAndWritesNoFlag : Prop :=
  ∀ (m : ModRM) (s : State) (a : Word), Operand32 m s a →
    ∃ t, exec (.incRm32 m) s = .next t ∧ WroteRM32 m (a + 1) s t ∧
      t.pc = s.pc + BitVec.ofNat 32 (1 + m.len) ∧ t.flags = s.flags ∧ SameRun s t ∧ SameIo s t

/-- INC r32 (R187), with its default encoding: one byte `40+r`; no flag, no fault. -/
def Obligations.IncR32AddsOneAndWritesNoFlag : Prop :=
  ∀ (r : RegNum) (s : State),
    (∀ rest, decode .ia32 ((0x40 + r.setWidth 8) :: rest) = .ok (.incR32 r)) ∧
    ∃ t, exec (.incR32 r) s = .next t ∧ OnlyReg r (s.reg r + 1) s t ∧ t.pc = s.pc + 1 ∧ t.flags = s.flags ∧
      SameMem s t ∧ SameRun s t ∧ SameIo s t

/-- CMP r/m32, imm8 and CMP r32, r/m32 (R183, R188): flags only; the register is the minuend of the second. -/
def Obligations.CompareRm32WritesFlagsOnly : Prop :=
  ∀ (m : ModRM) (s : State) (v : Word), Operand32 m s v →
    (∀ imm : Byte, ∃ t, exec (.cmpRm32Imm8 m imm) s = .next t ∧ t.flags = subFlags v (imm.signExtend 32) ∧
      t.pc = s.pc + BitVec.ofNat 32 (2 + m.len) ∧ SameRegs s t ∧ SameMem s t ∧ SameRun s t ∧ SameIo s t) ∧
    ∃ t, exec (.cmpR32Rm32 m) s = .next t ∧ t.flags = subFlags (s.reg m.reg) v ∧
      t.pc = s.pc + BitVec.ofNat 32 (1 + m.len) ∧ SameRegs s t ∧ SameMem s t ∧ SameRun s t ∧ SameIo s t

/-- CMP EAX, imm32 and CMP AL, imm8 (R190, R189): flags only, of the accumulator or of its low byte, widened as the
parameter says. -/
def Obligations.CompareAccumulatorWritesFlagsOnly : Prop :=
  ∀ s : State,
    (∀ imm : Word, ∃ t, exec (.cmpEaxImm32 imm) s = .next t ∧ t.flags = subFlags (s.reg EAX) imm ∧
      t.pc = s.pc + 5 ∧ SameRegs s t ∧ SameMem s t ∧ SameRun s t ∧ SameIo s t) ∧
    ∀ imm : Byte, ∃ t, exec (.cmpAlImm8 imm) s = .next t ∧
      t.flags = (match s.cfg.cmpAlImm8Ext with
        | .sign => subFlags (((s.reg EAX).setWidth 8).signExtend 32) (imm.signExtend 32)
        | .zero => subFlags (((s.reg EAX).setWidth 8).setWidth 32) (imm.setWidth 32)) ∧
      t.pc = s.pc + 2 ∧ SameRegs s t ∧ SameMem s t ∧ SameRun s t ∧ SameIo s t

/-- The unimplemented sub-opcodes of `83` and `FF` (R184, R186): a precise fatal stop that names opcode and sub-opcode, SIB
form or not.  The opcode is the byte that the assignment gives the group, 83 and FF by default (log 25). -/
def Obligations.UnimplementedSubopcodesAreFatal : Prop :=
  ∀ (m : ModRM) (s : State),
    (∃ t, exec (.grp83Unimplemented m) s = .next t ∧ FatalFrom (.subopcodeNotImplemented s.cfg.opc.grp83 m.reg) s t) ∧
    (∃ t, exec (.grpFFUnimplemented m) s = .next t ∧ FatalFrom (.subopcodeNotImplemented s.cfg.opc.grpFF m.reg) s t) ∧
    Config.reference.opc.grp83 = 0x83 ∧ Config.reference.opc.grpFF = 0xFF

/-! ### The stack -/

/-- PUSH r32 (R202), with its default encoding and its fault: the old value of the register is stored at the old stack pointer less
4, also for ESP; out of range, nothing changes. -/
def Obligations.PushR32StoresBelowTheStackPointer : Prop :=
  ∀ (r : RegNum) (s : State),
    (∀ rest, decode .ia32 ((0x50 + r.setWidth 8) :: rest) = .ok (.pushR32 r)) ∧
    ((s.reg ESP - 4).toNat + 4 ≤ s.cfg.memSize → ∃ t, exec (.pushR32 r) s = .next t ∧
      Stored32 (s.reg ESP - 4) (s.reg r) s t ∧ OnlyReg ESP (s.reg ESP - 4) s t ∧ t.pc = s.pc + 1 ∧
      t.flags = s.flags ∧ SameRun s t ∧ SameIo s t) ∧
    (s.cfg.memSize < (s.reg ESP - 4).toNat + 4 → ∃ t, exec (.pushR32 r) s = .next t ∧
      FatalFrom (.memRange (s.reg ESP - 4) 4 .write) s t)

/-- PUSH imm32 and PUSH imm8 (R204, R205): four bytes are stored, the 8-bit form widened as its parameter says; out of
range both stop precisely. -/
def Obligations.PushImmediateStoresFourBytes : Prop :=
  ∀ s : State,
    ((s.reg ESP - 4).toNat + 4 ≤ s.cfg.memSize →
      (∀ imm : Word, ∃ t, exec (.pushImm32 imm) s = .next t ∧ Stored32 (s.reg ESP - 4) imm s t ∧
        OnlyReg ESP (s.reg ESP - 4) s t ∧ t.pc = s.pc + 5 ∧ t.flags = s.flags ∧ SameRun s t ∧ SameIo s t) ∧
      ∀ imm : Byte, ∃ t, exec (.pushImm8 imm) s = .next t ∧
        Stored32 (s.reg ESP - 4)
          (match s.cfg.pushImm8Ext with | .sign => imm.signExtend 32 | .zero => imm.setWidth 32) s t ∧
        OnlyReg ESP (s.reg ESP - 4) s t ∧ t.pc = s.pc + 2 ∧ t.flags = s.flags ∧ SameRun s t ∧ SameIo s t) ∧
    (s.cfg.memSize < (s.reg ESP - 4).toNat + 4 →
      (∀ imm, ∃ t, exec (.pushImm32 imm) s = .next t ∧ FatalFrom (.memRange (s.reg ESP - 4) 4 .write) s t) ∧
      ∀ imm, ∃ t, exec (.pushImm8 imm) s = .next t ∧ FatalFrom (.memRange (s.reg ESP - 4) 4 .write) s t)

/-- POP r32 (R203), with its default encoding and its fault: the register takes the value at the stack pointer, which moves up by 4;
POP ESP leaves the popped value. -/
def Obligations.PopR32LoadsFromTheStackPointer : Prop :=
  ∀ (r : RegNum) (s : State),
    (∀ rest, decode .ia32 ((0x58 + r.setWidth 8) :: rest) = .ok (.popR32 r)) ∧
    ((s.reg ESP).toNat + 4 ≤ s.cfg.memSize → ∃ t, exec (.popR32 r) s = .next t ∧
      (∀ q, t.reg q = if q = r then value32 s (s.reg ESP) else if q = ESP then s.reg ESP + 4 else s.reg q) ∧
      t.pc = s.pc + 1 ∧ t.flags = s.flags ∧ SameMem s t ∧ SameRun s t ∧ SameIo s t) ∧
    (s.cfg.memSize < (s.reg ESP).toNat + 4 → ∃ t, exec (.popR32 r) s = .next t ∧
      FatalFrom (.memRange (s.reg ESP) 4 .read) s t)

/-- Push then pop (R207): for any value and any register but ESP, the register takes the value and the stack pointer is
restored. -/
def Obligations.PushThenPopRestoresTheStackPointer : Prop :=
  ∀ (v : Word) (r : RegNum) (s : State), r ≠ ESP → (s.reg ESP - 4).toNat + 4 ≤ s.cfg.memSize →
    ∃ t u, exec (.pushImm32 v) s = .next t ∧ exec (.popR32 r) t = .next u ∧ u.reg r = v ∧ u.reg ESP = s.reg ESP

/-- LEAVE (R206), with its default encoding and its fault: ESP takes the old EBP plus 4, EBP the value stored at the old EBP. -/
def Obligations.LeaveRestoresTheFrame : Prop :=
  ∀ s : State, (∀ rest, decode .ia32 (0xC9 :: rest) = .ok .leave) ∧
    ((s.reg EBP).toNat + 4 ≤ s.cfg.memSize → ∃ t, exec .leave s = .next t ∧
      (∀ q, t.reg q = if q = EBP then value32 s (s.reg EBP) else if q = ESP then s.reg EBP + 4 else s.reg q) ∧
      t.pc = s.pc + 1 ∧ t.flags = s.flags ∧ SameMem s t ∧ SameRun s t ∧ SameIo s t) ∧
    (s.cfg.memSize < (s.reg EBP).toNat + 4 → ∃ t, exec .leave s = .next t ∧
      FatalFrom (.memRange (s.reg EBP) 4 .read) s t)

/-! ### Control transfer -/

/-- JMP rel8 and JMP rel32 (R210 to R212): the target counts from the byte after the instruction. -/
def Obligations.JumpsGoToTheirTarget : Prop :=
  ∀ s : State,
    (∀ d : Byte, ∃ t, exec (.jmpRel8 d) s = .next t ∧ t.pc = s.pc + 2 + d.signExtend 32 ∧ t.flags = s.flags ∧
      SameRegs s t ∧ SameMem s t ∧ SameRun s t ∧ SameIo s t) ∧
    ∀ d : Word, ∃ t, exec (.jmpRel32 d) s = .next t ∧ t.pc = s.pc + 5 + d ∧ t.flags = s.flags ∧
      SameRegs s t ∧ SameMem s t ∧ SameRun s t ∧ SameIo s t

/-- The ten conditional jumps (R213 to R222): taken exactly when the predicate of R157 holds, else the next instruction. -/
def Obligations.ConditionalJumpsTestTheirPredicate : Prop :=
  ∀ (s : State) (d : Byte) (p : Bool) (i : Instr),
    (i = .joRel8 d ∧ p = s.flags.OF ∨ i = .jnoRel8 d ∧ p = !s.flags.OF ∨ i = .jcRel8 d ∧ p = s.flags.CF ∨
      i = .jncRel8 d ∧ p = !s.flags.CF ∨ i = .jzRel8 d ∧ p = s.flags.ZF ∨ i = .jnzRel8 d ∧ p = !s.flags.ZF ∨
      i = .jsRel8 d ∧ p = s.flags.SF ∨ i = .jnsRel8 d ∧ p = !s.flags.SF ∨
      i = .jlRel8 d ∧ p = decide (s.flags.SF ≠ s.flags.OF) ∨
      i = .jleRel8 d ∧ p = (s.flags.ZF || decide (s.flags.SF ≠ s.flags.OF))) →
    ∃ t, exec i s = .next t ∧ t.pc = (if p then s.pc + 2 + d.signExtend 32 else s.pc + 2) ∧ t.flags = s.flags ∧
      SameRegs s t ∧ SameMem s t ∧ SameRun s t ∧ SameIo s t

/-- CALL rel32 (R223): the return address, the byte after the instruction, is pushed, and control goes to the target; where
the push is out of range neither ESP nor the pc changes. -/
def Obligations.CallPushesTheReturnAddress : Prop :=
  ∀ (s : State) (d : Word),
    ((s.reg ESP - 4).toNat + 4 ≤ s.cfg.memSize →
      ∃ t, exec (.callRel32 d) s = .next t ∧ Stored32 (s.reg ESP - 4) (s.pc + 5) s t ∧
        OnlyReg ESP (s.reg ESP - 4) s t ∧ t.pc = s.pc + 5 + d ∧ t.flags = s.flags ∧ SameRun s t ∧ SameIo s t) ∧
    (s.cfg.memSize < (s.reg ESP - 4).toNat + 4 →
      ∃ t, exec (.callRel32 d) s = .next t ∧ FatalFrom (.memRange (s.reg ESP - 4) 4 .write) s t)

/-- RET (R224), with its default encoding and its fault: the top of the stack becomes the pc, unadjusted. -/
def Obligations.RetPopsThePc : Prop :=
  ∀ s : State, (∀ rest, decode .ia32 (0xC3 :: rest) = .ok .ret) ∧
    ((s.reg ESP).toNat + 4 ≤ s.cfg.memSize → ∃ t, exec .ret s = .next t ∧ t.pc = value32 s (s.reg ESP) ∧
      OnlyReg ESP (s.reg ESP + 4) s t ∧ t.flags = s.flags ∧ SameMem s t ∧ SameRun s t ∧ SameIo s t) ∧
    (s.cfg.memSize < (s.reg ESP).toNat + 4 → ∃ t, exec .ret s = .next t ∧ FatalFrom (.memRange (s.reg ESP) 4 .read) s t)

/-- A RET right after a CALL returns to the byte after the CALL with the stack pointer restored (R223, R224). -/
def Obligations.RetAfterCallReturns : Prop :=
  ∀ (s : State) (d : Word), (s.reg ESP - 4).toNat + 4 ≤ s.cfg.memSize →
    ∃ t u, exec (.callRel32 d) s = .next t ∧ exec .ret t = .next u ∧ u.pc = s.pc + 5 ∧ SameRegs s u ∧ u.flags = s.flags

/-! ### Interrupt and I/O -/

/-- INT 0x10 with AH = 0x0E (R231): one Display event of AL, the low three bits of BL and its bit 3; nothing else changes but
the pc. -/
def Obligations.TeletypeEmitsOneTriple : Prop :=
  ∀ s : State, s.reg8 AH = 0x0E → ∃ t, exec (.intImm8 0x10) s = .next t ∧
    t.events = s.events ++ [.display ((s.reg EAX).extractLsb' 0 8) ((s.reg EBX).extractLsb' 0 3) ((s.reg EBX).extractLsb' 3 1)] ∧
    t.pc = s.pc + 2 ∧ SameRegs s t ∧ t.flags = s.flags ∧ SameMem s t ∧ SameRun s t ∧
    t.consoleIn = s.consoleIn ∧ t.consolePolls = s.consolePolls

/-- The teletype property of R232: character 'A' and colour nibble 0x0C give character 'A', colour-id red (4), brightness 1,
and no console output. -/
def Obligations.TeletypeBrightRedExample : Prop :=
  ∀ s : State, s.reg8 AH = 0x0E → s.reg8 AL = 0x41 → s.reg8 BL &&& 0x0F = 0x0C →
    ∃ t, exec (.intImm8 0x10) s = .next t ∧ t.events = s.events ++ [.display 0x41 4 1] ∧ colourName 4 = "red"

/-- Every other vector, and every other function of vector 0x10, is logged and execution continues (R230, R250). -/
def Obligations.UnhandledInterruptsAreLogged : Prop :=
  ∀ s : State,
    (∀ v : Byte, v ≠ 0x10 → ∃ t, exec (.intImm8 v) s = .next t ∧ t.events = s.events ++ [.unhandledInterrupt v] ∧
      t.pc = s.pc + 2 ∧ SameRegs s t ∧ t.flags = s.flags ∧ SameMem s t ∧ SameRun s t ∧
      t.consoleIn = s.consoleIn ∧ t.consolePolls = s.consolePolls) ∧
    (s.reg8 AH ≠ 0x0E → ∃ t, exec (.intImm8 0x10) s = .next t ∧
      t.events = s.events ++ [.unhandledVideoFunction (s.reg8 AH)] ∧
      t.pc = s.pc + 2 ∧ SameRegs s t ∧ t.flags = s.flags ∧ SameMem s t ∧ SameRun s t ∧
      t.consoleIn = s.consoleIn ∧ t.consolePolls = s.consolePolls)

/-- IN from a port other than the console (R233, R235): AL is 0, no event, no input consumed. -/
def Obligations.InFromAnotherPortReadsZero : Prop :=
  ∀ s : State, (s.reg EDX).extractLsb' 0 16 ≠ s.cfg.consolePort →
    ∃ t, exec .inAlDx s = .next t ∧ OnlyReg8 AL 0 s t ∧ t.pc = s.pc + 1 ∧ t.flags = s.flags ∧
      SameMem s t ∧ SameRun s t ∧ SameIo s t

/-- IN from the console port (R233, R235): AL takes the next byte of the input stream, which is consumed and recorded. -/
def Obligations.InFromTheConsoleTakesTheNextByte : Prop :=
  ∀ (s : State) (b : Byte) (rest : List Byte), (s.reg EDX).extractLsb' 0 16 = s.cfg.consolePort → s.consoleIn = b :: rest →
    ∃ t, exec .inAlDx s = .next t ∧ OnlyReg8 AL b s t ∧ t.events = s.events ++ [.consoleIn b] ∧ t.consoleIn = rest ∧
      t.consolePolls = s.consolePolls ∧ t.pc = s.pc + 1 ∧ t.flags = s.flags ∧ SameMem s t ∧ SameRun s t

/-- IN from the console port past the end of the launch-time stream (R233, U8, U9): with the byte the environment supplies,
whichever it is, the instruction completes; with none yet it holds, the pc and all else unchanged.  The free value, the
poll counter and the held step are the model's (log 6). -/
def Obligations.InFromTheConsoleWaitsForAByte : Prop :=
  ∀ s : State, (s.reg EDX).extractLsb' 0 16 = s.cfg.consolePort → s.consoleIn = [] →
    ∃ t, exec .inAlDx s = .next t ∧ t.flags = s.flags ∧ SameMem s t ∧ SameRun s t ∧ t.consoleIn = [] ∧
      t.consolePolls = s.consolePolls + 1 ∧
      match Config.consoleSupply s.consolePolls with
      | some b => OnlyReg8 AL b s t ∧ t.events = s.events ++ [.consoleIn b] ∧ t.pc = s.pc + 1
      | none => SameRegs s t ∧ t.events = s.events ∧ t.pc = s.pc

/-- OUT (R234, R236), with its default encoding: a ConsoleOut event of AL at the console port, nothing at any other; the pc
advances 1; no fault. -/
def Obligations.OutWritesTheConsolePortOnly : Prop :=
  ∀ s : State, (∀ rest, decode .ia32 (0xEE :: rest) = .ok .outDxAl) ∧
    ∃ t, exec .outDxAl s = .next t ∧
      t.events = (if (s.reg EDX).extractLsb' 0 16 = s.cfg.consolePort
        then s.events ++ [.consoleOut ((s.reg EAX).extractLsb' 0 8)] else s.events) ∧
      t.pc = s.pc + 1 ∧ SameRegs s t ∧ t.flags = s.flags ∧ SameMem s t ∧ SameRun s t ∧
      t.consoleIn = s.consoleIn ∧ t.consolePolls = s.consolePolls

/-- UNRECOGNIZED (R118): one event with the byte and its address, the pc forced to 0, nothing else; the next step halts with
PC_ZERO. -/
def Obligations.UnrecognizedOpcodeForcesTheHalt : Prop :=
  ∀ (s : State) (b : Byte), ∃ t, exec (.unrecognized b) s = .next t ∧
    t.events = s.events ++ [.unrecognizedOpcode b s.pc] ∧ t.pc = 0 ∧ SameRegs s t ∧ t.flags = s.flags ∧ SameMem s t ∧
    SameRun s t ∧ t.consoleIn = s.consoleIn ∧ t.consolePolls = s.consolePolls ∧
    (s.runState = .running → ∃ u, step t = .next u ∧ u.runState = .halted ∧ u.haltCause = .pcZero)

/-! ### Reset -/

/-- Reset with an image (R280, R43): the image at its offset and zeros elsewhere, ESP and pc from the parameters, the rest
clear; a configuration that violates a `require` is refused. -/
def Obligations.BootPlacesTheImageAndClearsTheRest : Prop :=
  ∀ (c : Config) (image : List Byte),
    (1 ≤ c.memSize → c.memSize ≤ 2 ^ 32 → c.loadOffset.toNat + image.length ≤ c.memSize →
      ∃ s, boot c image = .next s ∧ s.cfg = c ∧ Inv s ∧
        (∀ k, (h : k < image.length) → s.byteAt (c.loadOffset.toNat + k) = image[k]) ∧
        (∀ a, (a < c.loadOffset.toNat ∨ c.loadOffset.toNat + image.length ≤ a) → s.byteAt a = 0) ∧
        (∀ r, s.reg r = if r = ESP then c.initSp else 0) ∧
        s.flags = { CF := false, ZF := false, SF := false, OF := false } ∧ s.pc = c.entryPc ∧
        s.runState = .running ∧ s.haltCause = .none ∧ s.fatal = none ∧ s.events = []) ∧
    ((c.memSize < 1 ∨ 2 ^ 32 < c.memSize ∨ c.memSize < c.loadOffset.toNat + image.length) →
      boot c image = .refused .configuration)

/-- The state `State.reset` is the reset of R280 at the reference defaults of R8: ESP and pc are 0x7c00, the other registers,
the flags and all of memory 0, running with neither cause and no event, the opcode assignment the table of R90.  Its memory
size and empty image are the model's (log 2, log 9). -/
def Obligations.ResetHoldsTheReferenceDefaults : Prop :=
  boot Config.reference [] = .next State.reset ∧ State.reset.cfg.opc = .ia32 ∧ State.reset.pc = 0x7c00 ∧
    (∀ r, State.reset.reg r = if r = ESP then 0x7c00 else 0) ∧ (∀ a, State.reset.byteAt a = 0) ∧
    State.reset.flags = { CF := false, ZF := false, SF := false, OF := false } ∧
    State.reset.runState = .running ∧ State.reset.haltCause = .none ∧ State.reset.fatal = none ∧ State.reset.events = []
end

