-- ==== Sys2Proof/Laws/Decode.lean ====
section
/-! SUPPORT. Laws/Decode.lean: what the byte helpers, the opcode table and the field readers answer, said once. -/

namespace Sys2Proof

/-! ### Byte order -/

/-- The four bytes of a word, put together again, are the word (R51). -/
theorem ofLE_bytes (v : Word) :
    ofLE (v.extractLsb' 0 8) (v.extractLsb' 8 8) (v.extractLsb' 16 8) (v.extractLsb' 24 8) = v := by
  unfold ofLE
  apply BitVec.eq_of_getLsbD_eq
  intro i hi
  simp only [BitVec.getLsbD_append, BitVec.getLsbD_extractLsb']
  by_cases h1 : i < 8
  · simp [h1]
  by_cases h2 : i - 8 < 8
  · have : 8 + (i - 8) = i := by omega
    simp [h1, h2, this]
  by_cases h3 : i - 8 - 8 < 8
  · have : 16 + (i - 8 - 8) = i := by omega
    simp [h1, h2, h3, this]
  · have : 24 + (i - 8 - 8 - 8) = i := by omega
    have h4 : i - 8 - 8 - 8 < 8 := by omega
    simp [h1, h2, h3, h4, this]

/-- The bytes of an assembled word are the bytes it was assembled from (R51). -/
theorem toLE_ofLE (b0 b1 b2 b3 : Byte) : toLE (ofLE b0 b1 b2 b3) = [b0, b1, b2, b3] := by
  unfold ofLE toLE
  simp only [List.cons.injEq, and_true]
  refine ⟨?_, ?_, ?_, ?_⟩ <;>
    (apply BitVec.eq_of_getLsbD_eq; intro i hi; simp only [BitVec.getLsbD_append, BitVec.getLsbD_extractLsb'])
  · simp [hi]
  · have h : ¬ (8 + i < 8) := by omega
    have e : 8 + i - 8 = i := by omega
    simp [hi, e]
  · have h : ¬ (16 + i < 8) := by omega
    have h2 : ¬ (16 + i - 8 < 8) := by omega
    have e : 16 + i - 8 - 8 = i := by omega
    simp only [hi, h, h2, e]; simp
  · have h : ¬ (24 + i < 8) := by omega
    have h2 : ¬ (24 + i - 8 < 8) := by omega
    have h3 : ¬ (24 + i - 8 - 8 < 8) := by omega
    have e : 24 + i - 8 - 8 - 8 = i := by omega
    simp only [hi, h, h2, h3, e]; simp

@[simp] theorem toLE_length (v : Word) : (toLE v).length = 4 := rfl

/-- A sign-extended byte, cut to its low byte, is the byte (R112). -/
@[simp] theorem sext32_setWidth (b : Byte) : (sext32 b).setWidth 8 = b := by
  revert b; decide +kernel

/-! ### The opcode table -/

/-- Every entry is in the list of entries. -/
theorem Opcode.mem_all (o : Opcode) : o ∈ Opcode.all := by cases o <;> decide

/-- What `find?` answers where no two members of the list satisfy the test: the one that does. -/
theorem find?_eq_of_pairwise {α : Type} {p : α → Bool} {l : List α} {a : α}
    (h : l.Pairwise fun x y => ¬ (p x = true ∧ p y = true)) (ha : a ∈ l) (hp : p a = true) : l.find? p = some a := by
  induction l with
  | nil => cases ha
  | cons x l ih =>
    obtain ⟨hx, hl⟩ := List.pairwise_cons.mp h
    rcases List.mem_cons.mp ha with rfl | hm
    · simp [hp]
    · have hn : p x = false := by simpa [hp] using hx a hm
      simp only [List.find?_cons, hn]
      exact ih hl hm

/-- Under a legal table a byte that matches an entry is found as that entry: the order of the rows does not matter (R99). -/
theorem lookup_of_match {t : OpcodeTable} (ht : t.legal = true) {b : Byte} {o : Opcode} (h : b &&& o.mask = t.byte o) :
    lookup t b = some o := by
  simp only [OpcodeTable.legal, Bool.and_eq_true, decide_eq_true_eq] at ht
  refine find?_eq_of_pairwise (ht.1.2.imp ?_) o.mem_all (by simpa using h)
  rintro x y hxy ⟨hx, hy⟩
  simp only [beq_iff_eq] at hx hy
  simp only [OpcodeTable.overlap, ← hx, ← hy, beq_eq_false_iff_ne] at hxy
  exact hxy (by rw [BitVec.and_assoc, BitVec.and_assoc, BitVec.and_comm x.mask])

/-- A legal table has the bits of an entry's byte that vary at 0: a family's base is a multiple of 8 (R82). -/
theorem OpcodeTable.byte_and_mask {t : OpcodeTable} (ht : t.legal = true) (o : Opcode) : t.byte o &&& o.mask = t.byte o := by
  simp only [OpcodeTable.legal, Bool.and_eq_true, List.all_eq_true, beq_iff_eq] at ht
  exact ht.1.1 o o.mem_all

/-- The byte of every entry of a legal table is found as that entry (R91). -/
theorem lookup_byte {t : OpcodeTable} (ht : t.legal = true) (o : Opcode) : lookup t (t.byte o) = some o :=
  lookup_of_match ht (t.byte_and_mask ht o)

/-- The sub-opcodes of a legal table differ. -/
theorem OpcodeTable.sub_ne {t : OpcodeTable} (ht : t.legal = true) :
    t.addSub ≠ t.subSub ∧ t.addSub ≠ t.cmpSub ∧ t.subSub ≠ t.cmpSub := by
  simpa [OpcodeTable.legal, and_assoc] using (Bool.and_eq_true_iff.mp ht).2

/-- A base that is a multiple of 8, plus a register number, keeps the base in its upper five bits and has the number in its
lower three (R82). -/
theorem base_add_reg (b : Byte) (r : RegNum) (h : b &&& 0xF8 = b) :
    (b + r.setWidth 8) &&& 0xF8 = b ∧ opcodeReg (b + r.setWidth 8) = r := by
  revert h r b; decide +kernel

/-- Every byte of a register-in-opcode family is found as the family, and carries its register number (R82). -/
theorem lookup_withReg {t : OpcodeTable} (ht : t.legal = true) (o : Opcode) (h : o.mask = 0xF8) (r : RegNum) :
    lookup t (t.withReg o r) = some o ∧ opcodeReg (t.withReg o r) = r := by
  have hb := t.byte_and_mask ht o
  rw [h] at hb
  obtain ⟨h1, h2⟩ := base_add_reg (t.byte o) r hb
  exact ⟨lookup_of_match ht (by rw [h]; exact h1), h2⟩

/-- An entry that is found matches. -/
theorem lookup_some {t : OpcodeTable} {b : Byte} {o : Opcode} (h : lookup t b = some o) : b &&& o.mask = t.byte o := by
  simpa using List.find?_some h

/-- A byte is its upper five bits plus its lower three. -/
theorem byte_split (b : Byte) : (b &&& 0xF8) + (opcodeReg b).setWidth 8 = b := by
  revert b; decide +kernel

/-- An entry fixes the whole byte, or its upper five bits (R82). -/
theorem Opcode.mask_cases (o : Opcode) : o.mask = 0xF8 ∨ o.mask = 0xFF := by cases o <;> decide

/-- Under any table, a recognized byte is the byte of its entry, or base plus register number. -/
theorem eq_of_lookup {t : OpcodeTable} {b : Byte} {o : Opcode} (h : lookup t b = some o) :
    b = if o.mask = 0xF8 then t.withReg o (opcodeReg b) else t.byte o := by
  have hm := lookup_some h
  rcases o.mask_cases with ho | ho <;> rw [ho] at hm ⊢
  · rw [if_pos rfl, OpcodeTable.withReg, ← hm, byte_split]
  · rw [if_neg (by decide), ← hm]
    exact (BitVec.and_allOnes (x := b)).symm

/-- The default table is a legal one. -/
theorem OpcodeTable.ia32_legal : OpcodeTable.ia32.legal = true := by decide +kernel

/-- The bytes the default table leaves unrecognized are those R94 lists. -/
theorem lookup_none_iff (b : Byte) : lookup .ia32 b = none ↔ unrecognizedFirstByte b = true := by
  revert b; decide +kernel

/-! ### The ModRM byte -/

/-- The fields of a ModRM byte are those it was put together from (R83). -/
theorem ModRM.byte_fields (m : ModRM) :
    m.byte.extractLsb' 6 2 = m.mod ∧ m.byte.extractLsb' 3 3 = m.reg ∧ m.byte.extractLsb' 0 3 = m.rm := by
  rcases m with ⟨a, b, c, d, e⟩
  simp only [ModRM.byte]
  revert a b c; decide

/-- A byte is put together from its ModRM fields (R83). -/
theorem modRM_byte_eq (b : Byte) : (b.extractLsb' 6 2 ++ b.extractLsb' 3 3 ++ b.extractLsb' 0 3 : Byte) = b := by
  revert b; decide +kernel

/-- A displacement field has 0, 1 or 4 bytes (R84). -/
theorem dispSize_cases (mod : BitVec 2) (rm : RegNum) : dispSize mod rm = 0 ∨ dispSize mod rm = 1 ∨ dispSize mod rm = 4 := by
  unfold dispSize; split
  · simp
  · split <;> simp

/-- The ModRM group of a well-formed descriptor has `m.len` bytes (R84). -/
theorem ModRM.encode_length (m : ModRM) (h : m.wf = true) : m.encode.length = m.len := by
  simp only [ModRM.wf, Bool.and_eq_true, beq_iff_eq] at h
  have hs : m.sib.toList.length = if m.hasSib = true then 1 else 0 := by
    rw [← h.1]; cases m.sib <;> rfl
  unfold ModRM.encode ModRM.len
  rcases dispSize_cases m.mod m.rm with hd | hd | hd <;> simp [encodeDisp, hd, hs] <;> omega

/-- The ModRM group has 1 to 6 bytes (R84, R130). -/
theorem ModRM.len_bounds (m : ModRM) : 1 ≤ m.len ∧ m.len ≤ 6 := by
  unfold ModRM.len
  rcases dispSize_cases m.mod m.rm with hd | hd | hd <;> split <;> omega

/-! ### The list readers -/

/-- `Code8(k)` over a list: its byte `k`, or the place where the list ends. -/
theorem listCode8_spec (bs : List Byte) (k : Nat) :
    listCode8 bs k = if h : k < bs.length then .ok bs[k] else .error (.truncated k 1) := by
  unfold listCode8
  by_cases h : k < bs.length
  · simp [h]
  · have : bs[k]? = none := List.getElem?_eq_none (by omega)
    simp [h]

/-- `Code32(k)` over a list: its four bytes from `k`, or the place where the list ends. -/
theorem listCode32_spec (bs : List Byte) (k : Nat) :
    listCode32 bs k = if h : k + 4 ≤ bs.length then .ok (ofLE bs[k] bs[k + 1] bs[k + 2] bs[k + 3])
      else .error (.truncated k 4) := by
  unfold listCode32
  by_cases h : k + 4 ≤ bs.length
  · have e : bs.drop k = bs[k] :: bs[k + 1] :: bs[k + 2] :: bs[k + 3] :: bs.drop (k + 4) := by
      rw [List.drop_eq_getElem_cons (by omega), List.drop_eq_getElem_cons (by omega),
        List.drop_eq_getElem_cons (by omega), List.drop_eq_getElem_cons (by omega)]
    rw [dif_pos h, e]
  · have hl : (bs.drop k).length < 4 := by simp; omega
    rw [dif_neg h]
    match hd : bs.drop k with
    | [] | [_] | [_, _] | [_, _, _] => rfl
    | _ :: _ :: _ :: _ :: _ => rw [hd] at hl; simp at hl; omega

/-- `Code8` past a prefix reads the rest. -/
theorem listCode8_append (xs : List Byte) (b : Byte) (rest : List Byte) (n : Nat) (h : xs.length = n) :
    listCode8 (xs ++ b :: rest) n = .ok b := by
  subst h; simp [listCode8]

/-- `Code32` past a prefix reads the word laid out there. -/
theorem listCode32_append (xs : List Byte) (v : Word) (rest : List Byte) (n : Nat) (h : xs.length = n) :
    listCode32 (xs ++ (toLE v ++ rest)) n = .ok v := by
  subst h; simp [listCode32, toLE, ofLE_bytes]

/-! ### Descriptors -/

/-- The displacement field of a fitting displacement reads back as it (R131). -/
theorem readDisp_encodeDisp (pre rest : List Byte) (m : ModRM) (h : m.dispFits = true) (k : Nat) (hk : pre.length = k) :
    readDisp (listCode8 (pre ++ (encodeDisp (dispSize m.mod m.rm) m.disp ++ rest)))
      (listCode32 (pre ++ (encodeDisp (dispSize m.mod m.rm) m.disp ++ rest))) (dispSize m.mod m.rm) k = .ok m.disp := by
  simp only [ModRM.dispFits] at h
  rcases dispSize_cases m.mod m.rm with hd | hd | hd
  · simp only [hd, beq_iff_eq] at h ⊢
    simp [readDisp, h]
  · simp only [hd, beq_iff_eq] at h ⊢
    simp only [readDisp, encodeDisp, List.cons_append, List.nil_append, listCode8_append _ _ _ k hk]
    exact congrArg Except.ok h.symm
  · simp only [hd]
    exact listCode32_append _ _ _ _ hk

/-- `ParseModRM` reads a well-formed descriptor back from its group (R131). -/
theorem parseModRM_encode (op : Byte) (m : ModRM) (h : m.wf = true) (rest : List Byte) :
    parseModRM (listCode8 ([op] ++ m.encode ++ rest)) (listCode32 ([op] ++ m.encode ++ rest)) = .ok m := by
  obtain ⟨h6, h3, h0⟩ := m.byte_fields
  simp only [ModRM.wf, Bool.and_eq_true, beq_iff_eq] at h
  obtain ⟨hs, hd⟩ := h
  have c1 : listCode8 ([op] ++ m.encode ++ rest) 1 = .ok m.byte := by simp [listCode8, ModRM.encode]
  have hh : (m.mod != 3 && m.rm == 4) = m.hasSib := rfl
  rw [parseModRM, c1]
  simp only [bind, Except.bind, h6, h3, h0, hh, ← hs]
  cases hsib : m.sib with
  | none =>
    have e : [op] ++ m.encode ++ rest = [op, m.byte] ++ (encodeDisp (dispSize m.mod m.rm) m.disp ++ rest) := by
      simp [ModRM.encode, hsib]
    simp only [e, Option.isSome_none, readSib, Bool.false_eq_true, if_false, readDisp_encodeDisp [op, m.byte] rest m hd 2 rfl]
    rw [← hsib]; rfl
  | some b =>
    have e : [op] ++ m.encode ++ rest = [op, m.byte, b] ++ (encodeDisp (dispSize m.mod m.rm) m.disp ++ rest) := by
      simp [ModRM.encode, hsib]
    have c2 : listCode8 ([op, m.byte, b] ++ (encodeDisp (dispSize m.mod m.rm) m.disp ++ rest)) 2 = .ok b := by
      simp [listCode8]
    simp only [e, Option.isSome_some, readSib, if_true, c2, readDisp_encodeDisp [op, m.byte, b] rest m hd 3 rfl, bind, Except.bind, pure,
      Except.pure]
    rw [← hsib]

/-! ### Sequencing of readers -/

/-- A sequence succeeds when its first part does and its second part does on that answer. -/
theorem bind_eq_ok {ε α β : Type} {x : Except ε α} {f : α → Except ε β} {b : β} :
    (x >>= f) = .ok b ↔ ∃ a, x = .ok a ∧ f a = .ok b := by
  cases x <;> simp [bind, Except.bind]

/-- A sequence whose first part succeeds goes on with its answer. -/
theorem bind_of_ok {ε α β : Type} {x : Except ε α} {a : α} (f : α → Except ε β) (h : x = .ok a) : (x >>= f) = f a := by
  subst h; rfl

/-- A sequence whose first part fails fails so. -/
theorem bind_of_error {ε α β : Type} {x : Except ε α} {e : ε} (f : α → Except ε β) (h : x = .error e) :
    (x >>= f) = .error e := by
  subst h; rfl

theorem pure_eq_ok {ε α : Type} {a b : α} : (pure a : Except ε α) = .ok b ↔ a = b := by
  simp [pure, Except.pure]

/-- A sequence fails with the first failure it meets. -/
theorem bind_eq_error {ε α β : Type} {x : Except ε α} {f : α → Except ε β} {e : ε} :
    (x >>= f) = .error e ↔ x = .error e ∨ ∃ a, x = .ok a ∧ f a = .error e := by
  cases x <;> simp [bind, Except.bind]

theorem pure_eq_error {ε α : Type} {a : α} {e : ε} : (pure a : Except ε α) = .error e ↔ False := by
  simp [pure, Except.pure]

/-! ### Decoding over any readers (R91, R131) -/

section Readers

variable {ε δ : Type} {tab : OpcodeTable} {c8 : Nat → Except ε Byte} {c32 : Nat → Except ε Word}
  {d8 : Nat → Except δ Byte} {d32 : Nat → Except δ Word}

/-- Readers that answer all that other readers answer parse the same descriptor. -/
theorem parseModRM_mono (h8 : ∀ k b, c8 k = .ok b → d8 k = .ok b) (h32 : ∀ k v, c32 k = .ok v → d32 k = .ok v)
    {m : ModRM} (h : parseModRM c8 c32 = .ok m) : parseModRM d8 d32 = .ok m := by
  unfold parseModRM at h ⊢
  simp only [bind_eq_ok, pure_eq_ok] at h ⊢
  obtain ⟨b, hb, s, hs, d, hd, hm⟩ := h
  refine ⟨b, h8 _ _ hb, s, ?_, d, ?_, hm⟩
  · unfold readSib at hs ⊢
    split at hs
    · simp only [bind_eq_ok, pure_eq_ok] at hs ⊢
      obtain ⟨a, ha, rfl⟩ := hs
      exact ⟨a, h8 _ _ ha, rfl⟩
    · cases hs; rfl
  · unfold readDisp at hd ⊢
    split at hd
    · exact h32 _ _ hd
    · simp only [bind_eq_ok, pure_eq_ok] at hd ⊢
      obtain ⟨a, ha, rfl⟩ := hd
      exact ⟨a, h8 _ _ ha, rfl⟩
    · cases hd; rfl

theorem decodeGrp83_mono (h8 : ∀ k b, c8 k = .ok b → d8 k = .ok b) {m : ModRM} {i : Instr}
    (h : decodeGrp83 tab c8 m = .ok i) : decodeGrp83 tab d8 m = .ok i := by
  unfold decodeGrp83 at h ⊢
  split at h
  · rw [if_pos ‹_›]; simp only [bind_eq_ok, pure_eq_ok] at h ⊢
    obtain ⟨a, ha, rfl⟩ := h; exact ⟨a, h8 _ _ ha, rfl⟩
  rw [if_neg ‹_›]
  split at h
  · rw [if_pos ‹_›]; simp only [bind_eq_ok, pure_eq_ok] at h ⊢
    obtain ⟨a, ha, rfl⟩ := h; exact ⟨a, h8 _ _ ha, rfl⟩
  rw [if_neg ‹_›]
  split at h
  · rw [if_pos ‹_›]; simp only [bind_eq_ok, pure_eq_ok] at h ⊢
    obtain ⟨a, ha, rfl⟩ := h; exact ⟨a, h8 _ _ ha, rfl⟩
  rw [if_neg ‹_›]
  cases h; rfl

/-- Readers that answer all that other readers answer decode the same instruction. -/
theorem decodeWith_mono (h8 : ∀ k b, c8 k = .ok b → d8 k = .ok b) (h32 : ∀ k v, c32 k = .ok v → d32 k = .ok v)
    {i : Instr} (h : decodeWith tab c8 c32 = .ok i) : decodeWith tab d8 d32 = .ok i := by
  unfold decodeWith at h ⊢
  rw [bind_eq_ok] at h ⊢
  obtain ⟨b, hb, h⟩ := h
  refine ⟨b, h8 _ _ hb, ?_⟩
  cases hl : lookup tab b with
  | none => simp only [hl, pure_eq_ok] at h ⊢; exact h
  | some o =>
    simp only [hl] at h ⊢
    have hp := fun m => parseModRM_mono (m := m) h8 h32
    cases o <;> simp only [decodeOperands, bind_eq_ok, pure_eq_ok] at h ⊢
    all_goals first
      | (cases h; rfl)
      | (obtain ⟨a, ha, h⟩ := h; exact ⟨a, hp _ ha, h⟩)
      | (obtain ⟨a, ha, h⟩ := h; exact ⟨a, h8 _ _ ha, h⟩)
      | (obtain ⟨a, ha, h⟩ := h; exact ⟨a, h32 _ _ ha, h⟩)
      | (obtain ⟨a, ha, h⟩ := h; exact ⟨a, hp _ ha, decodeGrp83_mono h8 h⟩)
      | (obtain ⟨a, ha, v, hv, h⟩ := h; exact ⟨a, hp _ ha, v, h32 _ _ hv, h⟩)

/-- A descriptor that is parsed is well-formed (R84, R130). -/
theorem parseModRM_wf {m : ModRM} (h : parseModRM c8 c32 = .ok m) : m.wf = true := by
  unfold parseModRM at h
  simp only [bind_eq_ok, pure_eq_ok] at h
  obtain ⟨b, _, sib, hs, disp, hd, rfl⟩ := h
  generalize b.extractLsb' 6 2 = mod at *
  generalize b.extractLsb' 3 3 = reg at *
  generalize b.extractLsb' 0 3 = rm at *
  simp only [ModRM.wf, Bool.and_eq_true, beq_iff_eq, ModRM.hasSib, ModRM.dispFits]
  constructor
  · cases hc : (mod != 3 && rm == 4) <;> simp only [hc, readSib, bind_eq_ok, pure_eq_ok] at hs
    · cases hs; rfl
    · obtain ⟨a, _, rfl⟩ := hs; rfl
  · rcases dispSize_cases mod rm with hz | hz | hz <;> simp only [hz, readDisp, bind_eq_ok, pure_eq_ok] at hd ⊢
    · cases hd; rfl
    · obtain ⟨a, _, rfl⟩ := hd
      rw [sext32_setWidth]; exact beq_self_eq_true _

theorem decodeGrp83_wf {m : ModRM} (hm : m.wf = true) {i : Instr} (h : decodeGrp83 tab c8 m = .ok i) : i.wf tab = true := by
  unfold decodeGrp83 at h
  split at h
  · simp only [bind_eq_ok, pure_eq_ok] at h; obtain ⟨_, _, rfl⟩ := h; simp [Instr.wf, *]
  split at h
  · simp only [bind_eq_ok, pure_eq_ok] at h; obtain ⟨_, _, rfl⟩ := h; simp [Instr.wf, *]
  split at h
  · simp only [bind_eq_ok, pure_eq_ok] at h; obtain ⟨_, _, rfl⟩ := h; simp [Instr.wf, *]
  · cases h; simp only [Instr.wf, hm, grp83Implemented, Bool.true_and, Bool.not_eq_true', Bool.or_eq_false_iff,
      beq_eq_false_iff_ne]
    exact ⟨⟨‹_›, ‹_›⟩, ‹_›⟩

/-- An instruction that is decoded is well-formed (R90 to R94). -/
theorem decodeWith_wf {i : Instr} (h : decodeWith tab c8 c32 = .ok i) : i.wf tab = true := by
  unfold decodeWith at h
  rw [bind_eq_ok] at h
  obtain ⟨b, _, h⟩ := h
  cases hl : lookup tab b with
  | none => simp only [hl, pure_eq_ok] at h; subst h; simp [Instr.wf, hl]
  | some o =>
    simp only [hl] at h
    cases o <;> simp only [decodeOperands, bind_eq_ok, pure_eq_ok] at h
    all_goals first
      | (cases h; rfl)
      | (obtain ⟨a, _, rfl⟩ := h; rfl)
      | (obtain ⟨m, hm, rfl⟩ := h; exact parseModRM_wf hm)
      | (obtain ⟨m, hm, h⟩ := h; exact decodeGrp83_wf (parseModRM_wf hm) h)
      | (obtain ⟨m, hm, v, hv, rfl⟩ := h; exact parseModRM_wf hm)
      | (obtain ⟨m, hm, rfl⟩ := h
         have := parseModRM_wf hm
         unfold decodeGrpFF
         split <;> simp only [Instr.wf, this, Bool.true_and, beq_iff_eq, bne_iff_ne] <;> assumption)

/-- A descriptor that cannot be parsed has a field past the opcode byte that cannot be read. -/
theorem parseModRM_error {e : ε} (h : parseModRM c8 c32 = .error e) :
    ∃ k, 1 ≤ k ∧ (c8 k = .error e ∨ c32 k = .error e) := by
  unfold parseModRM at h
  simp only [bind_eq_error, pure_eq_error, or_false, exists_false, and_false] at h
  rcases h with h | ⟨b, _, h | ⟨s, _, h⟩⟩
  · exact ⟨1, by omega, .inl h⟩
  · unfold readSib at h
    split at h
    · simp only [bind_eq_error, pure_eq_error, or_false, exists_false, and_false] at h
      exact ⟨2, by omega, .inl h⟩
    · cases h
  · have hk : ∀ p : Bool, 1 ≤ if p = true then 3 else 2 := by decide
    unfold readDisp at h
    split at h
    · exact ⟨_, hk _, .inr h⟩
    · simp only [bind_eq_error, pure_eq_error, or_false, exists_false, and_false] at h
      exact ⟨_, hk _, .inl h⟩
    · cases h

/-- The first group fails exactly where its immediate is fetched and cannot be read (R184, R256). -/
theorem decodeGrp83_eq_error {m : ModRM} {e : ε} :
    decodeGrp83 tab c8 m = .error e ↔ grp83Implemented tab m.reg = true ∧ c8 (1 + m.len) = .error e := by
  unfold decodeGrp83 grp83Implemented
  by_cases ha : m.reg = tab.addSub
  · rw [if_pos ha]
    simp only [ha, bind_eq_error, pure_eq_error, or_false, exists_false, and_false, beq_self_eq_true, Bool.true_or, true_and]
  rw [if_neg ha]
  by_cases hs : m.reg = tab.subSub
  · rw [if_pos hs]
    simp only [hs, bind_eq_error, pure_eq_error, or_false, exists_false, and_false, beq_self_eq_true, Bool.true_or,
      Bool.or_true, true_and]
  rw [if_neg hs]
  by_cases hc : m.reg = tab.cmpSub
  · rw [if_pos hc]
    simp only [hc, bind_eq_error, pure_eq_error, or_false, exists_false, and_false, beq_self_eq_true, Bool.or_true, true_and]
  rw [if_neg hc]
  simp [ha, hs, hc]

/-- An instruction that cannot be decoded has a field that cannot be read: its opcode byte, or one past it (R256). -/
theorem decodeWith_error {e : ε} (h : decodeWith tab c8 c32 = .error e) :
    c8 0 = .error e ∨ ∃ k, 1 ≤ k ∧ (c8 k = .error e ∨ c32 k = .error e) := by
  simp only [decodeWith, bind_eq_error] at h
  rcases h with h | ⟨b, _, h⟩
  · exact .inl h
  right
  cases hl : lookup tab b with
  | none => simp only [hl, pure_eq_error] at h
  | some o =>
    simp only [hl] at h
    cases o <;>
      simp only [decodeOperands, bind_eq_error, pure_eq_error, or_false, exists_false, and_false, reduceCtorEq] at h
    case movRm32Imm32 =>
      rcases h with h | ⟨m, _, h⟩
      · exact parseModRM_error h
      · exact ⟨_, by omega, .inr h⟩
    case grp83 =>
      rcases h with h | ⟨m, _, h⟩
      · exact parseModRM_error h
      exact ⟨_, by omega, .inl (decodeGrp83_eq_error.mp h).2⟩
    all_goals first
      | exact parseModRM_error h
      | exact ⟨_, by omega, .inl h⟩
      | exact ⟨_, by omega, .inr h⟩

/-- A descriptor whose fields are read below `L` ends at or below `L` (R84). -/
theorem parseModRM_bound {L : Nat} (h8 : ∀ k b, c8 k = .ok b → k < L) (h32 : ∀ k v, c32 k = .ok v → k + 4 ≤ L)
    {m : ModRM} (h : parseModRM c8 c32 = .ok m) : 1 + m.len ≤ L := by
  unfold parseModRM at h
  simp only [bind_eq_ok, pure_eq_ok] at h
  obtain ⟨b, hb, s, hs, d, hd, rfl⟩ := h
  have h1 := h8 _ _ hb
  unfold ModRM.len ModRM.hasSib
  generalize b.extractLsb' 6 2 = mod at *
  generalize b.extractLsb' 3 3 = reg at *
  generalize b.extractLsb' 0 3 = rm at *
  change 1 + (1 + (if (mod != 3 && rm == 4) = true then 1 else 0) + dispSize mod rm) ≤ L
  have hk : (if (mod != 3 && rm == 4) = true then 3 else 2) ≤ L ∧
      (if (mod != 3 && rm == 4) = true then 3 else 2) = 2 + if (mod != 3 && rm == 4) = true then 1 else 0 := by
    cases hc : (mod != 3 && rm == 4)
    · exact ⟨h1, rfl⟩
    · simp only [hc, readSib, bind_eq_ok] at hs
      obtain ⟨a, ha, _⟩ := hs
      exact ⟨h8 _ _ ha, rfl⟩
  rw [hk.2] at hd
  have hk := hk.2 ▸ hk.1
  rcases dispSize_cases mod rm with hz | hz | hz <;> simp only [hz, readDisp, bind_eq_ok] at hd ⊢
  · omega
  · obtain ⟨a, ha, _⟩ := hd; have := h8 _ _ ha; omega
  · have := h32 _ _ hd; omega

section Frontier

/-! Readers `c8`, `c32` that read below `L` only, against readers `d8`, `d32` that answer what they answer and fail, as `φ`
says, where they fail at an offset up to `L`.  Fields are contiguous, so no field is asked for past `L`. -/

variable {φ : ε → δ} {L : Nat}
  (h8 : ∀ k b, c8 k = .ok b → k < L ∧ d8 k = .ok b) (h32 : ∀ k v, c32 k = .ok v → k + 4 ≤ L ∧ d32 k = .ok v)
  (e8 : ∀ k e, k ≤ L → c8 k = .error e → d8 k = .error (φ e))
  (e32 : ∀ k e, k ≤ L → c32 k = .error e → d32 k = .error (φ e))
include h8 e8 e32

/-- Parsing a descriptor fails alike over both pairs of readers. -/
theorem parseModRM_fails_alike {e : ε} (h0 : 1 ≤ L) (h : parseModRM c8 c32 = .error e) :
    parseModRM d8 d32 = .error (φ e) := by
  unfold parseModRM at h ⊢
  simp only [bind_eq_error, pure_eq_error, or_false, exists_false, and_false] at h ⊢
  rcases h with h | ⟨b, hb, h | ⟨s, hs, h⟩⟩
  · exact .inl (e8 _ _ h0 h)
  · refine .inr ⟨b, (h8 _ _ hb).2, .inl ?_⟩
    have h1 := (h8 _ _ hb).1
    unfold readSib at h ⊢
    split at h
    · simp only [bind_eq_error, pure_eq_error, or_false, exists_false, and_false] at h ⊢
      exact e8 _ _ (by omega) h
    · cases h
  · have h1 := (h8 _ _ hb).1
    have hs' : readSib d8 (b.extractLsb' 6 2 != 3 && b.extractLsb' 0 3 == 4) = .ok s ∧
        (if (b.extractLsb' 6 2 != 3 && b.extractLsb' 0 3 == 4) = true then 3 else 2) ≤ L := by
      cases hc : (b.extractLsb' 6 2 != 3 && b.extractLsb' 0 3 == 4) <;>
        simp only [hc, readSib, bind_eq_ok, pure_eq_ok, Bool.false_eq_true, if_false, if_true] at hs ⊢
      · cases hs; exact ⟨rfl, by omega⟩
      · obtain ⟨a, ha, rfl⟩ := hs
        exact ⟨⟨a, (h8 _ _ ha).2, rfl⟩, by have := (h8 _ _ ha).1; omega⟩
    refine .inr ⟨b, (h8 _ _ hb).2, .inr ⟨s, hs'.1, ?_⟩⟩
    unfold readDisp at h ⊢
    split at h
    · exact e32 _ _ hs'.2 h
    · simp only [bind_eq_error, pure_eq_error, or_false, exists_false, and_false] at h ⊢
      exact e8 _ _ hs'.2 h
    · cases h

include h32 in
/-- Decoding fails alike over both pairs of readers: at the first field that cannot be read (R256). -/
theorem decodeWith_fails_alike {e : ε} (h : decodeWith tab c8 c32 = .error e) :
    decodeWith tab d8 d32 = .error (φ e) := by
  simp only [decodeWith, bind_eq_error] at h ⊢
  rcases h with h | ⟨b, hb, h⟩
  · exact .inl (e8 _ _ (Nat.zero_le _) h)
  refine .inr ⟨b, (h8 _ _ hb).2, ?_⟩
  have h1 : 1 ≤ L := (h8 _ _ hb).1
  have parsed {m : ModRM} (hm : parseModRM c8 c32 = .ok m) : parseModRM d8 d32 = .ok m ∧ 1 + m.len ≤ L :=
    ⟨parseModRM_mono (fun k b hb => (h8 k b hb).2) (fun k v hv => (h32 k v hv).2) hm,
      parseModRM_bound (fun k b hb => (h8 k b hb).1) (fun k v hv => (h32 k v hv).1) hm⟩
  have failed := parseModRM_fails_alike h8 e8 e32 (e := e) h1
  cases hl : lookup tab b with
  | none => simp only [hl, pure_eq_error] at h
  | some o =>
    simp only [hl] at h ⊢
    cases o <;>
      simp only [decodeOperands, bind_eq_error, pure_eq_error, or_false, exists_false, and_false, reduceCtorEq] at h ⊢
    case movRm32Imm32 =>
      rcases h with h | ⟨m, hm, h⟩
      · exact .inl (failed h)
      · exact .inr ⟨m, (parsed hm).1, e32 _ _ (parsed hm).2 h⟩
    case grp83 =>
      rcases h with h | ⟨m, hm, h⟩
      · exact .inl (failed h)
      obtain ⟨hi, hk⟩ := decodeGrp83_eq_error.mp h
      exact .inr ⟨m, (parsed hm).1, decodeGrp83_eq_error.mpr ⟨hi, e8 _ _ (parsed hm).2 hk⟩⟩
    all_goals first
      | exact failed h
      | exact e8 _ _ h1 h
      | exact e32 _ _ h1 h

end Frontier

end Readers

end Sys2Proof
end

