-- ==== Sys2Proof/Laws/State.lean ====
section
/-! SUPPORT. Laws/State.lean: one lemma per field per update of the state, so that no later proof unfolds a record update. -/

namespace Sys2Proof.Machine

@[simp] theorem State.setReg_cfg (s : State) (r : RegNum) (v : Word) : (s.setReg r v).cfg = s.cfg := rfl
@[simp] theorem State.setReg_regs (s : State) (r : RegNum) (v : Word) : (s.setReg r v).regs = s.regs.set r.toNat v r.isLt := rfl
@[simp] theorem State.setReg_flags (s : State) (r : RegNum) (v : Word) : (s.setReg r v).flags = s.flags := rfl
@[simp] theorem State.setReg_pc (s : State) (r : RegNum) (v : Word) : (s.setReg r v).pc = s.pc := rfl
@[simp] theorem State.setReg_mem (s : State) (r : RegNum) (v : Word) : (s.setReg r v).mem = s.mem := rfl
@[simp] theorem State.setReg_runState (s : State) (r : RegNum) (v : Word) : (s.setReg r v).runState = s.runState := rfl
@[simp] theorem State.setReg_haltCause (s : State) (r : RegNum) (v : Word) : (s.setReg r v).haltCause = s.haltCause := rfl
@[simp] theorem State.setReg_fatal (s : State) (r : RegNum) (v : Word) : (s.setReg r v).fatal = s.fatal := rfl
@[simp] theorem State.setReg_events (s : State) (r : RegNum) (v : Word) : (s.setReg r v).events = s.events := rfl
@[simp] theorem State.setReg_consoleIn (s : State) (r : RegNum) (v : Word) : (s.setReg r v).consoleIn = s.consoleIn := rfl
@[simp] theorem State.setReg_consolePolls (s : State) (r : RegNum) (v : Word) : (s.setReg r v).consolePolls = s.consolePolls := rfl

@[simp] theorem State.setPc_cfg (s : State) (t : Word) : (s.setPc t).cfg = s.cfg := rfl
@[simp] theorem State.setPc_regs (s : State) (t : Word) : (s.setPc t).regs = s.regs := rfl
@[simp] theorem State.setPc_flags (s : State) (t : Word) : (s.setPc t).flags = s.flags := rfl
@[simp] theorem State.setPc_pc (s : State) (t : Word) : (s.setPc t).pc = t := rfl
@[simp] theorem State.setPc_mem (s : State) (t : Word) : (s.setPc t).mem = s.mem := rfl
@[simp] theorem State.setPc_runState (s : State) (t : Word) : (s.setPc t).runState = s.runState := rfl
@[simp] theorem State.setPc_haltCause (s : State) (t : Word) : (s.setPc t).haltCause = s.haltCause := rfl
@[simp] theorem State.setPc_fatal (s : State) (t : Word) : (s.setPc t).fatal = s.fatal := rfl
@[simp] theorem State.setPc_events (s : State) (t : Word) : (s.setPc t).events = s.events := rfl
@[simp] theorem State.setPc_consoleIn (s : State) (t : Word) : (s.setPc t).consoleIn = s.consoleIn := rfl
@[simp] theorem State.setPc_consolePolls (s : State) (t : Word) : (s.setPc t).consolePolls = s.consolePolls := rfl

@[simp] theorem State.setFlags_cfg (s : State) (f : Flags) : (s.setFlags f).cfg = s.cfg := rfl
@[simp] theorem State.setFlags_regs (s : State) (f : Flags) : (s.setFlags f).regs = s.regs := rfl
@[simp] theorem State.setFlags_flags (s : State) (f : Flags) : (s.setFlags f).flags = f := rfl
@[simp] theorem State.setFlags_pc (s : State) (f : Flags) : (s.setFlags f).pc = s.pc := rfl
@[simp] theorem State.setFlags_mem (s : State) (f : Flags) : (s.setFlags f).mem = s.mem := rfl
@[simp] theorem State.setFlags_runState (s : State) (f : Flags) : (s.setFlags f).runState = s.runState := rfl
@[simp] theorem State.setFlags_haltCause (s : State) (f : Flags) : (s.setFlags f).haltCause = s.haltCause := rfl
@[simp] theorem State.setFlags_fatal (s : State) (f : Flags) : (s.setFlags f).fatal = s.fatal := rfl
@[simp] theorem State.setFlags_events (s : State) (f : Flags) : (s.setFlags f).events = s.events := rfl
@[simp] theorem State.setFlags_consoleIn (s : State) (f : Flags) : (s.setFlags f).consoleIn = s.consoleIn := rfl
@[simp] theorem State.setFlags_consolePolls (s : State) (f : Flags) : (s.setFlags f).consolePolls = s.consolePolls := rfl

@[simp] theorem State.emit_cfg (s : State) (e : Event) : (s.emit e).cfg = s.cfg := rfl
@[simp] theorem State.emit_regs (s : State) (e : Event) : (s.emit e).regs = s.regs := rfl
@[simp] theorem State.emit_flags (s : State) (e : Event) : (s.emit e).flags = s.flags := rfl
@[simp] theorem State.emit_pc (s : State) (e : Event) : (s.emit e).pc = s.pc := rfl
@[simp] theorem State.emit_mem (s : State) (e : Event) : (s.emit e).mem = s.mem := rfl
@[simp] theorem State.emit_runState (s : State) (e : Event) : (s.emit e).runState = s.runState := rfl
@[simp] theorem State.emit_haltCause (s : State) (e : Event) : (s.emit e).haltCause = s.haltCause := rfl
@[simp] theorem State.emit_fatal (s : State) (e : Event) : (s.emit e).fatal = s.fatal := rfl
@[simp] theorem State.emit_events (s : State) (e : Event) : (s.emit e).events = s.events ++ [e] := rfl
@[simp] theorem State.emit_consoleIn (s : State) (e : Event) : (s.emit e).consoleIn = s.consoleIn := rfl
@[simp] theorem State.emit_consolePolls (s : State) (e : Event) : (s.emit e).consolePolls = s.consolePolls := rfl

@[simp] theorem State.halt_cfg (s : State) (c : HaltCause) : (s.halt c).cfg = s.cfg := rfl
@[simp] theorem State.halt_regs (s : State) (c : HaltCause) : (s.halt c).regs = s.regs := rfl
@[simp] theorem State.halt_flags (s : State) (c : HaltCause) : (s.halt c).flags = s.flags := rfl
@[simp] theorem State.halt_pc (s : State) (c : HaltCause) : (s.halt c).pc = s.pc := rfl
@[simp] theorem State.halt_mem (s : State) (c : HaltCause) : (s.halt c).mem = s.mem := rfl
@[simp] theorem State.halt_runState (s : State) (c : HaltCause) : (s.halt c).runState = .halted := rfl
@[simp] theorem State.halt_haltCause (s : State) (c : HaltCause) : (s.halt c).haltCause = c := rfl
@[simp] theorem State.halt_fatal (s : State) (c : HaltCause) : (s.halt c).fatal = s.fatal := rfl
@[simp] theorem State.halt_events (s : State) (c : HaltCause) : (s.halt c).events = s.events ++ [.halted c] := rfl
@[simp] theorem State.halt_consoleIn (s : State) (c : HaltCause) : (s.halt c).consoleIn = s.consoleIn := rfl
@[simp] theorem State.halt_consolePolls (s : State) (c : HaltCause) : (s.halt c).consolePolls = s.consolePolls := rfl

@[simp] theorem State.raiseFatal_cfg (s : State) (c : FatalCause) : (s.raiseFatal c).cfg = s.cfg := rfl
@[simp] theorem State.raiseFatal_regs (s : State) (c : FatalCause) : (s.raiseFatal c).regs = s.regs := rfl
@[simp] theorem State.raiseFatal_flags (s : State) (c : FatalCause) : (s.raiseFatal c).flags = s.flags := rfl
@[simp] theorem State.raiseFatal_pc (s : State) (c : FatalCause) : (s.raiseFatal c).pc = s.pc := rfl
@[simp] theorem State.raiseFatal_mem (s : State) (c : FatalCause) : (s.raiseFatal c).mem = s.mem := rfl
@[simp] theorem State.raiseFatal_runState (s : State) (c : FatalCause) : (s.raiseFatal c).runState = .fatal := rfl
@[simp] theorem State.raiseFatal_haltCause (s : State) (c : FatalCause) : (s.raiseFatal c).haltCause = s.haltCause := rfl
@[simp] theorem State.raiseFatal_fatal (s : State) (c : FatalCause) : (s.raiseFatal c).fatal = some c := rfl
@[simp] theorem State.raiseFatal_events (s : State) (c : FatalCause) : (s.raiseFatal c).events = s.events ++ [.fatalStop c] := rfl
@[simp] theorem State.raiseFatal_consoleIn (s : State) (c : FatalCause) : (s.raiseFatal c).consoleIn = s.consoleIn := rfl
@[simp] theorem State.raiseFatal_consolePolls (s : State) (c : FatalCause) : (s.raiseFatal c).consolePolls = s.consolePolls := rfl

theorem State.advance_eq_setPc (s : State) (n : Nat) : s.advance n = s.setPc (s.pc + BitVec.ofNat 32 n) := rfl

@[simp] theorem State.advance_cfg (s : State) (n : Nat) : (s.advance n).cfg = s.cfg := rfl
@[simp] theorem State.advance_regs (s : State) (n : Nat) : (s.advance n).regs = s.regs := rfl
@[simp] theorem State.advance_flags (s : State) (n : Nat) : (s.advance n).flags = s.flags := rfl
@[simp] theorem State.advance_pc (s : State) (n : Nat) : (s.advance n).pc = s.pc + BitVec.ofNat 32 n := rfl
@[simp] theorem State.advance_mem (s : State) (n : Nat) : (s.advance n).mem = s.mem := rfl
@[simp] theorem State.advance_runState (s : State) (n : Nat) : (s.advance n).runState = s.runState := rfl
@[simp] theorem State.advance_haltCause (s : State) (n : Nat) : (s.advance n).haltCause = s.haltCause := rfl
@[simp] theorem State.advance_fatal (s : State) (n : Nat) : (s.advance n).fatal = s.fatal := rfl
@[simp] theorem State.advance_events (s : State) (n : Nat) : (s.advance n).events = s.events := rfl
@[simp] theorem State.advance_consoleIn (s : State) (n : Nat) : (s.advance n).consoleIn = s.consoleIn := rfl
@[simp] theorem State.advance_consolePolls (s : State) (n : Nat) : (s.advance n).consolePolls = s.consolePolls := rfl

/-! ### Reading a register after an update -/

/-- Read after write of the register file (R21). -/
@[simp] theorem State.reg_setReg (s : State) (r q : RegNum) (v : Word) :
    (s.setReg r v).reg q = if q = r then v else s.reg q := by
  simp only [State.reg, State.setReg, Vector.getElem_set, BitVec.toNat_eq, eq_comm]

theorem State.reg_setReg_self (s : State) (r : RegNum) (v : Word) : (s.setReg r v).reg r = v := by simp

/-- Registers are a function of the register file alone. -/
theorem State.reg_congr {s t : State} (h : t.regs = s.regs) (q : RegNum) : t.reg q = s.reg q := by
  simp only [State.reg, h]

/-- The registers at reset (R41, R42, R280). -/
theorem State.reg_resetWith (c : Config) (r : RegNum) :
    (State.resetWith c).reg r = if r = ESP then c.initSp else 0 := by
  simp only [State.reg, State.resetWith, Vector.getElem_set, Vector.getElem_replicate]
  by_cases h : r = ESP
  · subst h; rfl
  · have h' : ¬ 4 = r.toNat := fun e => h (BitVec.eq_of_toNat_eq e.symm)
    rw [if_neg h, if_neg h']

@[simp] theorem State.reg_setPc (s : State) (t : Word) (q : RegNum) : (s.setPc t).reg q = s.reg q := rfl
@[simp] theorem State.reg_setFlags (s : State) (f : Flags) (q : RegNum) : (s.setFlags f).reg q = s.reg q := rfl
@[simp] theorem State.reg_emit (s : State) (e : Event) (q : RegNum) : (s.emit e).reg q = s.reg q := rfl
@[simp] theorem State.reg_halt (s : State) (c : HaltCause) (q : RegNum) : (s.halt c).reg q = s.reg q := rfl
@[simp] theorem State.reg_raiseFatal (s : State) (c : FatalCause) (q : RegNum) : (s.raiseFatal c).reg q = s.reg q := rfl
@[simp] theorem State.reg_advance (s : State) (n : Nat) (q : RegNum) : (s.advance n).reg q = s.reg q := rfl
@[simp] theorem State.reg_withMem (s : State) (m : Memory) (q : RegNum) : ({ s with mem := m } : State).reg q = s.reg q := rfl

/-! ### Writing a byte view changes the register file only (R23) -/

@[simp] theorem State.setReg8_cfg (s : State) (j : RegNum) (v : Byte) : (s.setReg8 j v).cfg = s.cfg := by
  unfold State.setReg8; split <;> rfl
@[simp] theorem State.setReg8_flags (s : State) (j : RegNum) (v : Byte) : (s.setReg8 j v).flags = s.flags := by
  unfold State.setReg8; split <;> rfl
@[simp] theorem State.setReg8_pc (s : State) (j : RegNum) (v : Byte) : (s.setReg8 j v).pc = s.pc := by
  unfold State.setReg8; split <;> rfl
@[simp] theorem State.setReg8_mem (s : State) (j : RegNum) (v : Byte) : (s.setReg8 j v).mem = s.mem := by
  unfold State.setReg8; split <;> rfl
@[simp] theorem State.setReg8_runState (s : State) (j : RegNum) (v : Byte) : (s.setReg8 j v).runState = s.runState := by
  unfold State.setReg8; split <;> rfl
@[simp] theorem State.setReg8_haltCause (s : State) (j : RegNum) (v : Byte) : (s.setReg8 j v).haltCause = s.haltCause := by
  unfold State.setReg8; split <;> rfl
@[simp] theorem State.setReg8_fatal (s : State) (j : RegNum) (v : Byte) : (s.setReg8 j v).fatal = s.fatal := by
  unfold State.setReg8; split <;> rfl
@[simp] theorem State.setReg8_events (s : State) (j : RegNum) (v : Byte) : (s.setReg8 j v).events = s.events := by
  unfold State.setReg8; split <;> rfl
@[simp] theorem State.setReg8_consoleIn (s : State) (j : RegNum) (v : Byte) : (s.setReg8 j v).consoleIn = s.consoleIn := by
  unfold State.setReg8; split <;> rfl
@[simp] theorem State.setReg8_consolePolls (s : State) (j : RegNum) (v : Byte) : (s.setReg8 j v).consolePolls = s.consolePolls := by
  unfold State.setReg8; split <;> rfl

/-! ### What depends on memory, on registers, on the memory bound alone -/

theorem State.byteAt_congr {s t : State} (h : t.mem = s.mem) (a : Nat) : t.byteAt a = s.byteAt a := by
  simp only [State.byteAt, h]

@[simp] theorem State.byteAt_setReg (s : State) (r : RegNum) (v : Word) (a : Nat) : (s.setReg r v).byteAt a = s.byteAt a := rfl
@[simp] theorem State.byteAt_setPc (s : State) (t : Word) (a : Nat) : (s.setPc t).byteAt a = s.byteAt a := rfl
@[simp] theorem State.byteAt_setFlags (s : State) (f : Flags) (a : Nat) : (s.setFlags f).byteAt a = s.byteAt a := rfl
@[simp] theorem State.byteAt_emit (s : State) (e : Event) (a : Nat) : (s.emit e).byteAt a = s.byteAt a := rfl
@[simp] theorem State.byteAt_halt (s : State) (c : HaltCause) (a : Nat) : (s.halt c).byteAt a = s.byteAt a := rfl
@[simp] theorem State.byteAt_raiseFatal (s : State) (c : FatalCause) (a : Nat) : (s.raiseFatal c).byteAt a = s.byteAt a := rfl
@[simp] theorem State.byteAt_advance (s : State) (n : Nat) (a : Nat) : (s.advance n).byteAt a = s.byteAt a := rfl
@[simp] theorem State.byteAt_setReg8 (s : State) (j : RegNum) (v : Byte) (a : Nat) : (s.setReg8 j v).byteAt a = s.byteAt a :=
  State.byteAt_congr (State.setReg8_mem s j v) a

end Sys2Proof.Machine
end

