-- ==== Sys2Proof/Laws/Memory.lean ====
section
/-! SUPPORT. Laws/Memory.lean: reading after writing, and that every memory operation keeps the canonical form and the
memory bound. -/

namespace Sys2Proof.Machine

/-! ### Reading -/

theorem Memory.read_of_absent (m : Memory) (a : Nat) (h : ∀ c ∈ m, c.1 ≠ a) : Memory.read m a = 0 := by
  induction m with
  | nil => rfl
  | cons c m ih =>
    have hc : c.1 ≠ a := h c (by simp)
    simp only [Memory.read, if_neg hc]
    exact ih fun d hd => h d (by simp [hd])

theorem Memory.read_erase (m : Memory) (a b : Nat) :
    Memory.read (m.filter fun c => c.1 != a) b = if b = a then 0 else Memory.read m b := by
  by_cases hb : b = a
  · subst hb
    rw [if_pos rfl]
    exact Memory.read_of_absent _ _ fun c hc => by simpa using (List.mem_filter.mp hc).2
  · rw [if_neg hb]
    induction m with
    | nil => rfl
    | cons c m ih =>
      by_cases hca : c.1 = a
      · simp [hca, Memory.read, ih, Ne.symm hb]
      · simp [hca, Memory.read, ih]

theorem Memory.read_insert (m : Memory) (a b : Nat) (v : Byte) (h : ∀ c ∈ m, c.1 ≠ a) :
    Memory.read (Memory.insert m a v) b = if b = a then v else Memory.read m b := by
  induction m with
  | nil => simp [Memory.insert, Memory.read, eq_comm]
  | cons c m ih =>
    have hc : c.1 ≠ a := h c (by simp)
    have ih := ih fun d hd => h d (by simp [hd])
    by_cases hac : a < c.1
    · simp [Memory.insert, hac, Memory.read, eq_comm]
    · simp only [Memory.insert, hac, if_false, Memory.read, ih]
      by_cases hb : b = a
      · subst hb; simp [hc]
      · simp [hb]

/-- Read after write of one byte (R52, R53). -/
theorem Memory.read_write (m : Memory) (a b : Nat) (v : Byte) :
    Memory.read (Memory.write m a v) b = if b = a then v else Memory.read m b := by
  unfold Memory.write
  by_cases hv : v = 0
  · subst hv; simp only [if_true, Memory.read_erase]
  · simp only [hv, if_false]
    rw [Memory.read_insert _ _ _ _ (fun c hc => by simpa using (List.mem_filter.mp hc).2), Memory.read_erase]
    split <;> simp_all

/-- Read after a run of bytes is written: inside it the byte written, outside it what was there. -/
theorem Memory.read_writeBytes (m : Memory) (a b : Nat) (bs : List Byte) :
    Memory.read (Memory.writeBytes m a bs) b =
      if h : a ≤ b ∧ b < a + bs.length then bs[b - a] else Memory.read m b := by
  induction bs generalizing m a with
  | nil =>
    have : ¬ (a ≤ b ∧ b < a + 0) := by omega
    simp [Memory.writeBytes]
  | cons x bs ih =>
    rw [Memory.writeBytes, ih, Memory.read_write]
    simp only [List.length_cons]
    by_cases h1 : a + 1 ≤ b ∧ b < a + 1 + bs.length
    · have h2 : a ≤ b ∧ b < a + (bs.length + 1) := by omega
      have h3 : b - a = (b - (a + 1)) + 1 := by omega
      simp only [dif_pos h1, dif_pos h2, h3, List.getElem_cons_succ]
    · by_cases hb : b = a
      · subst hb; simp
      · have h2 : ¬ (a ≤ b ∧ b < a + (bs.length + 1)) := by omega
        rw [dif_neg h1, if_neg hb, dif_neg h2]

/-! ### The canonical form and the bound -/

theorem Memory.mem_insert {m : Memory} {a : Nat} {v : Byte} {c : Host.Cell} :
    c ∈ Memory.insert m a v ↔ c = (a, v) ∨ c ∈ m := by
  induction m with
  | nil => simp [Memory.insert]
  | cons d m ih =>
    unfold Memory.insert
    split
    · simp
    · simp only [List.mem_cons, ih]; tauto

theorem Memory.wf_erase {m : Memory} (h : Memory.wf m) (a : Nat) : Memory.wf (m.filter fun c => c.1 != a) :=
  ⟨h.1.filter _, fun c hc => h.2 c (List.mem_of_mem_filter hc)⟩

theorem Memory.wf_insert {m : Memory} (h : Memory.wf m) {a : Nat} {v : Byte} (hv : v ≠ 0) (ha : ∀ c ∈ m, c.1 ≠ a) :
    Memory.wf (Memory.insert m a v) := by
  constructor
  · have hp := h.1
    clear h
    induction m with
    | nil => simp [Memory.insert]
    | cons d m ih =>
      have hd : d.1 ≠ a := ha d (by simp)
      rw [List.pairwise_cons] at hp
      unfold Memory.insert
      split
      next hlt =>
        refine List.pairwise_cons.mpr ⟨fun c hc => ?_, List.pairwise_cons.mpr hp⟩
        rcases List.mem_cons.mp hc with rfl | hc
        · exact hlt
        · exact lt_trans hlt (hp.1 c hc)
      next hge =>
        refine List.pairwise_cons.mpr ⟨fun c hc => ?_, ih (fun c hc => ha c (by simp [hc])) hp.2⟩
        rcases Memory.mem_insert.mp hc with rfl | hc
        · have : d.1 ≤ a := not_lt.mp hge
          exact lt_of_le_of_ne this hd
        · exact hp.1 c hc
  · intro c hc
    rcases Memory.mem_insert.mp hc with rfl | hc
    · exact hv
    · exact h.2 c hc

/-- Writing a byte keeps the canonical form. -/
theorem Memory.wf_write {m : Memory} (h : Memory.wf m) (a : Nat) (v : Byte) : Memory.wf (Memory.write m a v) := by
  unfold Memory.write
  split
  · exact Memory.wf_erase h a
  · exact Memory.wf_insert (Memory.wf_erase h a) ‹_› fun c hc => by simpa using (List.mem_filter.mp hc).2

/-- Writing a run of bytes keeps the canonical form. -/
theorem Memory.wf_writeBytes {m : Memory} (h : Memory.wf m) (a : Nat) (bs : List Byte) :
    Memory.wf (Memory.writeBytes m a bs) := by
  induction bs generalizing m a with
  | nil => exact h
  | cons b bs ih => exact ih (Memory.wf_write h a b) (a + 1)

/-- Writing a byte below the bound leaves every cell below it. -/
theorem Memory.below_write {m : Memory} {n : Nat} (h : Memory.below m n) {a : Nat} (ha : a < n) (v : Byte) :
    Memory.below (Memory.write m a v) n := by
  intro c hc
  unfold Memory.write at hc
  split at hc
  · exact h c (List.mem_of_mem_filter hc)
  · rcases Memory.mem_insert.mp hc with rfl | hc
    · exact ha
    · exact h c (List.mem_of_mem_filter hc)

/-- Writing a run of bytes below the bound leaves every cell below it. -/
theorem Memory.below_writeBytes {m : Memory} {n : Nat} (h : Memory.below m n) {a : Nat} {bs : List Byte}
    (ha : a + bs.length ≤ n) : Memory.below (Memory.writeBytes m a bs) n := by
  induction bs generalizing m a with
  | nil => exact h
  | cons b bs ih =>
    simp only [List.length_cons] at ha
    exact ih (Memory.below_write h (by omega) b) (by omega)

/-- The empty memory of reset is in canonical form. -/
theorem Memory.wf_nil : Memory.wf [] := ⟨List.Pairwise.nil, by simp⟩

/-- Placing bytes at the program counter keeps the canonical form. -/
theorem State.placeAtPc_fold_wf {m : Memory} (h : Memory.wf m) (f : Byte × Nat → Nat) (n : Nat) (bs : List (Byte × Nat)) :
    Memory.wf (bs.foldl (fun m bk => if f bk < n then Memory.write m (f bk) bk.1 else m) m) := by
  induction bs generalizing m with
  | nil => exact h
  | cons b bs ih =>
    simp only [List.foldl_cons]
    split
    · exact ih (Memory.wf_write h _ _)
    · exact ih h

end Sys2Proof.Machine
end

