-- ==== Sys2Proof/Laws/Ops.lean ====
section
/-! SUPPORT. Laws/Ops.lean: what each shared operation of Machine/Ops.lean and Machine/Operands.lean answers, said once. -/

namespace Sys2Proof.Machine

open Sys2Proof.Safety

/-! ### Unchanged parts -/

theorem SameMem.of_mem {s t : State} (h : t.mem = s.mem) : SameMem s t := fun a => State.byteAt_congr h a

theorem SameRegs.of_regs {s t : State} (h : t.regs = s.regs) : SameRegs s t := fun q => State.reg_congr h q

/-! ### The end of an instruction -/

/-- An instruction answers a next state: the one its rule produced, or the fatal stop from the state it began in (R253). -/
theorem complete_next {s t : State} {r : Except FatalCause State} :
    complete s r = .next t ↔ r = .ok t ∨ ∃ c, r = .error c ∧ t = s.raiseFatal c := by
  cases r with
  | ok u => simp [complete]
  | error c => simp [complete, eq_comm]

@[simp] theorem complete_ok (s t : State) : complete s (.ok t) = .next t := rfl

@[simp] theorem complete_error (s : State) (c : FatalCause) : complete s (.error c) = .next (s.raiseFatal c) := rfl

/-- A fatal stop changes the status fields and adds one event (R252, R253). -/
theorem fatalFrom_raiseFatal (s : State) (c : FatalCause) : FatalFrom c s (s.raiseFatal c) :=
  ⟨rfl, rfl, rfl, rfl, rfl, rfl, rfl, rfl, rfl, rfl, rfl⟩

/-- Every instruction answers a next state. -/
theorem complete_exists (s : State) (r : Except FatalCause State) : ∃ t, complete s r = .next t := by
  cases r <;> exact ⟨_, rfl⟩

/-! ### Memory access (R52, R53) -/

theorem State.memRead8_ok {s : State} {a : Word} (h : a.toNat + 1 ≤ s.cfg.memSize) (kind : AccessKind) :
    s.memRead8 a kind = .ok (s.byteAt a.toNat) := by simp [State.memRead8, State.inRange, h]

theorem State.memRead8_error {s : State} {a : Word} (h : s.cfg.memSize < a.toNat + 1) (kind : AccessKind) :
    s.memRead8 a kind = .error (.memRange a 1 kind) := by
  simp [State.memRead8, State.inRange, Nat.not_le.mpr h]

theorem State.memRead32_ok {s : State} {a : Word} (h : a.toNat + 4 ≤ s.cfg.memSize) (kind : AccessKind) :
    s.memRead32 a kind = .ok (value32 s a) := by simp [State.memRead32, State.inRange, h, value32]

theorem State.memRead32_error {s : State} {a : Word} (h : s.cfg.memSize < a.toNat + 4) (kind : AccessKind) :
    s.memRead32 a kind = .error (.memRange a 4 kind) := by
  simp [State.memRead32, State.inRange, Nat.not_le.mpr h]

theorem State.memWrite8_ok {s : State} {a : Word} (h : a.toNat + 1 ≤ s.cfg.memSize) (v : Byte) :
    s.memWrite8 a v = .ok { s with mem := Memory.writeBytes s.mem a.toNat [v] } := by
  simp [State.memWrite8, State.inRange, h]

theorem State.memWrite8_error {s : State} {a : Word} (h : s.cfg.memSize < a.toNat + 1) (v : Byte) :
    s.memWrite8 a v = .error (.memRange a 1 .write) := by
  simp [State.memWrite8, State.inRange, Nat.not_le.mpr h]

theorem State.memWrite32_ok {s : State} {a : Word} (h : a.toNat + 4 ≤ s.cfg.memSize) (v : Word) :
    s.memWrite32 a v = .ok { s with mem := Memory.writeBytes s.mem a.toNat (toLE v) } := by
  simp [State.memWrite32, State.inRange, h]

theorem State.memWrite32_error {s : State} {a : Word} (h : s.cfg.memSize < a.toNat + 4) (v : Word) :
    s.memWrite32 a v = .error (.memRange a 4 .write) := by
  simp [State.memWrite32, State.inRange, Nat.not_le.mpr h]

/-- A state whose memory is that of `s` with a word written at `a` has that word stored, and nothing else (R53). -/
theorem stored32_of_mem {s t : State} {a v : Word} (h : t.mem = Memory.writeBytes s.mem a.toNat (toLE v)) :
    Stored32 a v s t := by
  constructor
  · intro k hk
    have hb : a.toNat ≤ a.toNat + k ∧ a.toNat + k < a.toNat + (toLE v).length := by simp; omega
    simp only [State.byteAt, h, Memory.read_writeBytes, dif_pos hb]
    have : k = 0 ∨ k = 1 ∨ k = 2 ∨ k = 3 := by omega
    rcases this with rfl | rfl | rfl | rfl <;> simp [toLE]
  · intro b hb
    have hn : ¬ (a.toNat ≤ b ∧ b < a.toNat + (toLE v).length) := by simp; omega
    simp only [State.byteAt, h, Memory.read_writeBytes, dif_neg hn]

/-- A state whose memory is that of `s` with a byte written at `a` has that byte stored, and nothing else (R53). -/
theorem stored8_of_mem {s t : State} {a : Word} {v : Byte} (h : t.mem = Memory.writeBytes s.mem a.toNat [v]) :
    Stored8 a v s t := by
  simp only [Memory.writeBytes] at h
  constructor
  · simp [State.byteAt, h, Memory.read_write]
  · intro b hb
    simp [State.byteAt, h, Memory.read_write, hb]

/-- The word stored at `a` is the word four bytes from `a` hold (R54). -/
theorem value32_of_stored {s t : State} {a v : Word} (h : Stored32 a v s t) : value32 t a = v := by
  have h0 := h.1 0 (by omega)
  have h1 := h.1 1 (by omega)
  have h2 := h.1 2 (by omega)
  have h3 := h.1 3 (by omega)
  simp only [value32, Nat.add_zero] at h0 ⊢
  rw [h0, h1, h2, h3]
  exact ofLE_bytes v

/-! ### Registers -/

theorem onlyReg_of_regs {s t : State} {r : RegNum} {v : Word} (h : t.regs = (s.setReg r v).regs) : OnlyReg r v s t := by
  constructor
  · rw [State.reg_congr h]; simp
  · intro q hq
    rw [State.reg_congr h]; simp [hq]

/-- The bits of the owning register after its low byte is written (R23). -/
theorem mergeLow_getLsbD (x : Word) (v : Byte) (i : Nat) :
    ((x &&& 0xFFFFFF00#32) ||| v.setWidth 32).getLsbD i = if i < 8 then v.getLsbD i else x.getLsbD i := by
  by_cases h32 : i < 32
  · have hm : (0xFFFFFF00#32).getLsbD i = decide (8 ≤ i) := by
      revert i; decide
    simp only [BitVec.getLsbD_or, BitVec.getLsbD_and, BitVec.getLsbD_setWidth, hm, h32, decide_true, Bool.true_and]
    by_cases h8 : i < 8
    · have : ¬ 8 ≤ i := by omega
      simp [h8, this]
    · simp [h8, Nat.not_lt.mp h8]
  · have h8 : ¬ i < 8 := by omega
    rw [BitVec.getLsbD_of_ge _ _ (by omega), if_neg h8, BitVec.getLsbD_of_ge _ _ (by omega)]

/-- The bits of the owning register after its high byte is written (R23). -/
theorem mergeHigh_getLsbD (x : Word) (v : Byte) (i : Nat) :
    ((x &&& 0xFFFF00FF#32) ||| (v.setWidth 32 <<< 8)).getLsbD i =
      if 8 ≤ i ∧ i < 16 then v.getLsbD (i - 8) else x.getLsbD i := by
  by_cases h32 : i < 32
  · have hm : (0xFFFF00FF#32).getLsbD i = !decide (8 ≤ i ∧ i < 16) := by
      revert i; decide
    simp only [BitVec.getLsbD_or, BitVec.getLsbD_and, BitVec.getLsbD_shiftLeft, BitVec.getLsbD_setWidth, hm, h32,
      decide_true, Bool.true_and]
    by_cases h8 : 8 ≤ i ∧ i < 16
    · have h1 : ¬ i < 8 := by omega
      have h2 : i - 8 < 32 := by omega
      simp [h8, h1, h2]
    · have hv : (!decide (i < 8) && (decide (i - 8 < 32) && v.getLsbD (i - 8))) = false := by
        by_cases hl : i < 8
        · simp [hl]
        · rw [BitVec.getLsbD_of_ge v (i - 8) (by omega)]; simp
      rw [hv, if_neg h8, decide_eq_false h8]; simp
  · have h8 : ¬ (8 ≤ i ∧ i < 16) := by omega
    rw [BitVec.getLsbD_of_ge _ _ (by omega), if_neg h8, BitVec.getLsbD_of_ge _ _ (by omega)]

/-- Writing a byte view changes its eight bits and no other bit of any register (R23). -/
theorem onlyReg8_of_regs {s t : State} {j : RegNum} {v : Byte} (h : t.regs = (s.setReg8 j v).regs) : OnlyReg8 j v s t := by
  intro q i
  rw [State.reg_congr h]
  unfold State.setReg8 viewOwner viewLow
  by_cases hj : j.toNat ≤ 3
  · simp only [hj, if_true, State.reg_setReg]
    by_cases hq : q = j
    · simp only [hq, if_true, mergeLow_getLsbD, true_and, Nat.zero_le, Nat.zero_add, Nat.sub_zero]
    · simp [hq]
  · simp only [hj, if_false, State.reg_setReg]
    by_cases hq : q = j - 4
    · simp only [hq, if_true, mergeHigh_getLsbD, true_and]
    · simp only [hq, if_false, false_and]

/-- A byte view reads the eight bits of its register (R23). -/
theorem State.reg8_getLsbD (s : State) (j : RegNum) (i : Nat) (hi : i < 8) :
    (s.reg8 j).getLsbD i = (s.reg (viewOwner j)).getLsbD (viewLow j + i) := by
  unfold State.reg8 viewOwner viewLow
  by_cases hj : j.toNat ≤ 3 <;> simp [hj, hi]

/-! ### Operands (R137 to R140) -/

theorem State.readRM32_reg {s : State} {m : ModRM} (h : m.mod = 3) : s.readRM32 m = .ok (s.reg m.rm) := by
  simp [State.readRM32, h]

theorem State.readRM8_reg {s : State} {m : ModRM} (h : m.mod = 3) : s.readRM8 m = .ok (s.reg8 m.rm) := by
  simp [State.readRM8, h]

theorem State.writeRM32_reg {s : State} {m : ModRM} (h : m.mod = 3) (v : Word) :
    s.writeRM32 m v = .ok (s.setReg m.rm v) := by simp [State.writeRM32, h]

theorem State.writeRM8_reg {s : State} {m : ModRM} (h : m.mod = 3) (v : Byte) :
    s.writeRM8 m v = .ok (s.setReg8 m.rm v) := by simp [State.writeRM8, h]

/-- Where an address resolves, the operand is no register (R134). -/
theorem State.mod_ne_of_effAddr {s : State} {m : ModRM} {a : Word} (h : s.effAddr m = .ok a) : m.mod ≠ 3 := by
  intro h3; simp [State.effAddr, h3] at h

theorem State.readRM32_mem {s : State} {m : ModRM} {a : Word} (h : s.effAddr m = .ok a) :
    s.readRM32 m = s.memRead32 a .read := by
  rw [State.readRM32, if_neg (State.mod_ne_of_effAddr h), h]; rfl

theorem State.readRM8_mem {s : State} {m : ModRM} {a : Word} (h : s.effAddr m = .ok a) :
    s.readRM8 m = s.memRead8 a .read := by
  rw [State.readRM8, if_neg (State.mod_ne_of_effAddr h), h]; rfl

theorem State.writeRM32_mem {s : State} {m : ModRM} {a : Word} (h : s.effAddr m = .ok a) (v : Word) :
    s.writeRM32 m v = s.memWrite32 a v := by
  rw [State.writeRM32, if_neg (State.mod_ne_of_effAddr h), h]; rfl

theorem State.writeRM8_mem {s : State} {m : ModRM} {a : Word} (h : s.effAddr m = .ok a) (v : Byte) :
    s.writeRM8 m v = s.memWrite8 a v := by
  rw [State.writeRM8, if_neg (State.mod_ne_of_effAddr h), h]; rfl

/-- The address of a SIB form does not resolve (R133). -/
theorem State.effAddr_sib {s : State} {m : ModRM} (h3 : m.mod ≠ 3) (h4 : m.rm = 4) :
    s.effAddr m = .error (.sibNotImplemented m.mod) := by rw [State.effAddr, if_neg h3, if_pos h4]

/-- An address fails to resolve for mode 3 or for a SIB form only (R132). -/
theorem State.effAddr_error {s : State} {m : ModRM} {c : FatalCause} (h : s.effAddr m = .error c) :
    (m.mod = 3 ∧ c = .eaMode3 m.rm) ∨ (m.mod ≠ 3 ∧ m.rm = 4 ∧ c = .sibNotImplemented m.mod) := by
  unfold State.effAddr at h
  split at h
  · cases h; exact .inl ⟨‹_›, rfl⟩
  · split at h
    · cases h; exact .inr ⟨‹_›, ‹_›, rfl⟩
    · split at h
      · cases h
      · split at h <;> cases h

/-- Reading an operand that exists gives its value. -/
theorem State.readRM32_operand {s : State} {m : ModRM} {v : Word} (h : Operand32 m s v) : s.readRM32 m = .ok v := by
  rcases h with ⟨h, rfl⟩ | ⟨a, ha, hr, rfl⟩
  · exact State.readRM32_reg h
  · rw [State.readRM32_mem ha, State.memRead32_ok hr]

theorem State.readRM8_operand {s : State} {m : ModRM} {v : Byte} (h : Operand8 m s v) : s.readRM8 m = .ok v := by
  rcases h with ⟨h, rfl⟩ | ⟨a, ha, hr, rfl⟩
  · exact State.readRM8_reg h
  · rw [State.readRM8_mem ha, State.memRead8_ok hr]

/-- An operand that has a value is accessible. -/
theorem accessible_of_operand32 {s : State} {m : ModRM} {v : Word} (h : Operand32 m s v) : Accessible 4 m s := by
  rcases h with ⟨h, _⟩ | ⟨a, ha, hr, _⟩
  · exact .inl h
  · exact .inr ⟨a, ha, hr⟩

/-- A write to an accessible operand succeeds, writes it alone, and touches only registers and memory. -/
theorem State.writeRM32_spec {s : State} {m : ModRM} (h : Accessible 4 m s) (v : Word) :
    ∃ t, s.writeRM32 m v = .ok t ∧ WroteRM32 m v s t ∧ t = { s with regs := t.regs, mem := t.mem } := by
  rcases h with h | ⟨a, ha, hr⟩
  · exact ⟨_, State.writeRM32_reg h v, ⟨fun _ => ⟨onlyReg_of_regs rfl, SameMem.of_mem rfl⟩, fun h' => absurd h h'⟩, rfl⟩
  · refine ⟨_, (State.writeRM32_mem ha v).trans (State.memWrite32_ok hr v), ⟨fun h' => absurd h' (State.mod_ne_of_effAddr ha),
      fun _ => ⟨SameRegs.of_regs rfl, fun b hb => ?_⟩⟩, rfl⟩
    rw [ha] at hb; cases hb
    exact stored32_of_mem rfl

theorem State.writeRM8_spec {s : State} {m : ModRM} (h : Accessible 1 m s) (v : Byte) :
    ∃ t, s.writeRM8 m v = .ok t ∧ WroteRM8 m v s t ∧ t = { s with regs := t.regs, mem := t.mem } := by
  rcases h with h | ⟨a, ha, hr⟩
  · refine ⟨_, State.writeRM8_reg h v, ⟨fun _ => ⟨onlyReg8_of_regs rfl, SameMem.of_mem (by simp)⟩, fun h' => absurd h h'⟩, ?_⟩
    unfold State.setReg8; split <;> rfl
  · refine ⟨_, (State.writeRM8_mem ha v).trans (State.memWrite8_ok hr v), ⟨fun h' => absurd h' (State.mod_ne_of_effAddr ha),
      fun _ => ⟨SameRegs.of_regs rfl, fun b hb => ?_⟩⟩, rfl⟩
    rw [ha] at hb; cases hb
    exact stored8_of_mem rfl

/-- What a write to the r/m operand says holds of any state with the same registers and memory. -/
theorem wroteRM32_congr {s t u : State} {m : ModRM} {v : Word} (h : WroteRM32 m v s t) (hr : u.regs = t.regs)
    (hm : u.mem = t.mem) : WroteRM32 m v s u := by
  have r := fun q => State.reg_congr hr q
  have b := fun a => State.byteAt_congr hm a
  refine ⟨fun h3 => ?_, fun h3 => ?_⟩
  · obtain ⟨⟨h1, h2⟩, h4⟩ := h.1 h3
    exact ⟨⟨(r _).trans h1, fun q hq => (r q).trans (h2 q hq)⟩, fun a => (b a).trans (h4 a)⟩
  · obtain ⟨h1, h2⟩ := h.2 h3
    exact ⟨fun q => (r q).trans (h1 q), fun a ha =>
      ⟨fun k hk => (b _).trans ((h2 a ha).1 k hk), fun c hc => (b c).trans ((h2 a ha).2 c hc)⟩⟩

theorem wroteRM8_congr {s t u : State} {m : ModRM} {v : Byte} (h : WroteRM8 m v s t) (hr : u.regs = t.regs)
    (hm : u.mem = t.mem) : WroteRM8 m v s u := by
  have b := fun a => State.byteAt_congr hm a
  refine ⟨fun h3 => ?_, fun h3 => ?_⟩
  · obtain ⟨h1, h4⟩ := h.1 h3
    exact ⟨fun q i => by rw [State.reg_congr hr]; exact h1 q i, fun a => (b a).trans (h4 a)⟩
  · obtain ⟨h1, h2⟩ := h.2 h3
    exact ⟨fun q => (State.reg_congr hr q).trans (h1 q), fun a ha =>
      ⟨(b _).trans (h2 a ha).1, fun c hc => (b c).trans ((h2 a ha).2 c hc)⟩⟩

/-! ### What a successful operation leaves alone -/

/-- A 32-bit store that succeeds was in range and changed memory alone. -/
theorem State.memWrite32_inv {s t : State} {a v : Word} (h : s.memWrite32 a v = .ok t) :
    a.toNat + 4 ≤ s.cfg.memSize ∧ t = { s with mem := Memory.writeBytes s.mem a.toNat (toLE v) } := by
  by_cases hr : a.toNat + 4 ≤ s.cfg.memSize
  · rw [State.memWrite32_ok hr] at h; cases h; exact ⟨hr, rfl⟩
  · rw [State.memWrite32_error (Nat.not_le.mp hr)] at h; cases h

theorem State.memWrite8_inv {s t : State} {a : Word} {v : Byte} (h : s.memWrite8 a v = .ok t) :
    a.toNat + 1 ≤ s.cfg.memSize ∧ t = { s with mem := Memory.writeBytes s.mem a.toNat [v] } := by
  by_cases hr : a.toNat + 1 ≤ s.cfg.memSize
  · rw [State.memWrite8_ok hr] at h; cases h; exact ⟨hr, rfl⟩
  · rw [State.memWrite8_error (Nat.not_le.mp hr)] at h; cases h

/-! ### The stack (R200, R201) -/

theorem State.push32_ok {s : State} (h : (s.reg ESP - 4).toNat + 4 ≤ s.cfg.memSize) (v : Word) :
    s.push32 v = .ok (({ s with mem := Memory.writeBytes s.mem (s.reg ESP - 4).toNat (toLE v) } : State).setReg ESP
      (s.reg ESP - 4)) := by
  simp only [State.push32, State.memWrite32_ok h]; rfl

theorem State.push32_error {s : State} (h : s.cfg.memSize < (s.reg ESP - 4).toNat + 4) (v : Word) :
    s.push32 v = .error (.memRange (s.reg ESP - 4) 4 .write) := by
  simp only [State.push32, State.memWrite32_error h]; rfl

theorem State.pop32_ok {s : State} (h : (s.reg ESP).toNat + 4 ≤ s.cfg.memSize) :
    s.pop32 = .ok (value32 s (s.reg ESP), s.setReg ESP (s.reg ESP + 4)) := by
  simp only [State.pop32, State.memRead32_ok h]; rfl

theorem State.pop32_error {s : State} (h : s.cfg.memSize < (s.reg ESP).toNat + 4) :
    s.pop32 = .error (.memRange (s.reg ESP) 4 .read) := by
  simp only [State.pop32, State.memRead32_error h]; rfl

/-- The word at an address depends on memory alone. -/
theorem value32_congr {s t : State} (h : t.mem = s.mem) (a : Word) : value32 t a = value32 s a := by
  simp only [value32, State.byteAt_congr h]

/-! ### The ports (R233, R234) -/

/-- A poll of the input source touches the console input alone. -/
theorem State.pollInput_frame (s : State) :
    s.pollInput = { s with consoleIn := s.pollInput.consoleIn, consolePolls := s.pollInput.consolePolls } := by
  unfold State.pollInput; split <;> rfl

/-- A read of another port gives 0 and changes nothing. -/
theorem State.portIn_other {s : State} {p : BitVec 16} (h : p ≠ s.cfg.consolePort) : s.portIn p = (some 0, s) := by
  simp [State.portIn, h]

/-- A read of the console port takes the next byte of the launch-time stream. -/
theorem State.portIn_stream {s : State} {p : BitVec 16} {b : Byte} {bs : List Byte} (h : p = s.cfg.consolePort)
    (hc : s.consoleIn = b :: bs) :
    s.portIn p = (some b, ({ s with consoleIn := bs } : State).emit (.consoleIn b)) := by
  simp [State.portIn, h, State.nextInput, State.pollInput, hc]

end Sys2Proof.Machine
end

