-- ==== Sys2Proof/Laws/PerInstr.lean ====
section
/-! SUPPORT. Laws/PerInstr.lean: statements about an instruction as syntax, one lemma per constructor. -/

/-- Under any opcode table, the encoding of a well-formed instruction has as many bytes as the decoder consumes, 1 to 11
(R80, R81). -/
def Sys2Proof.Laws.EncodedLength.Statement (i : Sys2Proof.Instr) : Prop :=
  ∀ tab : Sys2Proof.OpcodeTable, i.wf tab = true →
    (Sys2Proof.encode tab i).length = i.length ∧ 1 ≤ i.length ∧ i.length ≤ Sys2Proof.maxLength

namespace Sys2Proof.Laws.EncodedLength

/-- The descriptor's part of the count. -/
theorem group_length (m : ModRM) (h : m.wf = true) : m.encode.length = m.len ∧ 1 ≤ m.len ∧ m.len ≤ 6 :=
  ⟨m.encode_length h, m.len_bounds⟩

theorem movR32Imm32 (r : RegNum) (imm : Word) : Statement (.movR32Imm32 r imm) := by
  intro _ _
  simp [encode, Instr.length, maxLength]

theorem movRm32Imm32 (m : ModRM) (imm : Word) : Statement (.movRm32Imm32 m imm) := by
  intro _ h
  have g := group_length m h
  simp only [encode, Instr.length, maxLength, List.length_append, List.length_cons, List.length_nil, toLE_length]
  omega

theorem movRm8R8 (m : ModRM) : Statement (.movRm8R8 m) := by
  intro _ h
  have g := group_length m h
  simp only [encode, Instr.length, maxLength, List.length_append, List.length_cons, List.length_nil]
  omega

theorem movRm32R32 (m : ModRM) : Statement (.movRm32R32 m) := by
  intro _ h
  have g := group_length m h
  simp only [encode, Instr.length, maxLength, List.length_append, List.length_cons, List.length_nil]
  omega

theorem movR8Rm8 (m : ModRM) : Statement (.movR8Rm8 m) := by
  intro _ h
  have g := group_length m h
  simp only [encode, Instr.length, maxLength, List.length_append, List.length_cons, List.length_nil]
  omega

theorem movR32Rm32 (m : ModRM) : Statement (.movR32Rm32 m) := by
  intro _ h
  have g := group_length m h
  simp only [encode, Instr.length, maxLength, List.length_append, List.length_cons, List.length_nil]
  omega

theorem addRm32R32 (m : ModRM) : Statement (.addRm32R32 m) := by
  intro _ h
  have g := group_length m h
  simp only [encode, Instr.length, maxLength, List.length_append, List.length_cons, List.length_nil]
  omega

theorem addRm32Imm8 (m : ModRM) (imm : Byte) : Statement (.addRm32Imm8 m imm) := by
  intro _ h
  have g := group_length m (Bool.and_eq_true_iff.mp h).1
  simp only [encode, Instr.length, maxLength, List.length_append, List.length_cons, List.length_nil]
  omega

theorem subRm32Imm8 (m : ModRM) (imm : Byte) : Statement (.subRm32Imm8 m imm) := by
  intro _ h
  have g := group_length m (Bool.and_eq_true_iff.mp h).1
  simp only [encode, Instr.length, maxLength, List.length_append, List.length_cons, List.length_nil]
  omega

theorem cmpRm32Imm8 (m : ModRM) (imm : Byte) : Statement (.cmpRm32Imm8 m imm) := by
  intro _ h
  have g := group_length m (Bool.and_eq_true_iff.mp h).1
  simp only [encode, Instr.length, maxLength, List.length_append, List.length_cons, List.length_nil]
  omega

theorem incRm32 (m : ModRM) : Statement (.incRm32 m) := by
  intro _ h
  have g := group_length m (Bool.and_eq_true_iff.mp h).1
  simp only [encode, Instr.length, maxLength, List.length_append, List.length_cons, List.length_nil]
  omega

theorem incR32 (r : RegNum) : Statement (.incR32 r) := by
  intro _ _
  simp [encode, Instr.length, maxLength]

theorem pushR32 (r : RegNum) : Statement (.pushR32 r) := by
  intro _ _
  simp [encode, Instr.length, maxLength]

theorem popR32 (r : RegNum) : Statement (.popR32 r) := by
  intro _ _
  simp [encode, Instr.length, maxLength]

theorem pushImm32 (imm : Word) : Statement (.pushImm32 imm) := by
  intro _ _
  simp [encode, Instr.length, maxLength]

theorem pushImm8 (imm : Byte) : Statement (.pushImm8 imm) := by
  intro _ _
  simp [encode, Instr.length, maxLength]

theorem cmpR32Rm32 (m : ModRM) : Statement (.cmpR32Rm32 m) := by
  intro _ h
  have g := group_length m h
  simp only [encode, Instr.length, maxLength, List.length_append, List.length_cons, List.length_nil]
  omega

theorem cmpAlImm8 (imm : Byte) : Statement (.cmpAlImm8 imm) := by
  intro _ _
  simp [encode, Instr.length, maxLength]

theorem cmpEaxImm32 (imm : Word) : Statement (.cmpEaxImm32 imm) := by
  intro _ _
  simp [encode, Instr.length, maxLength]

theorem jmpRel8 (d : Byte) : Statement (.jmpRel8 d) := by
  intro _ _
  simp [encode, Instr.length, maxLength]

theorem jmpRel32 (d : Word) : Statement (.jmpRel32 d) := by
  intro _ _
  simp [encode, Instr.length, maxLength]

theorem joRel8 (d : Byte) : Statement (.joRel8 d) := by
  intro _ _
  simp [encode, Instr.length, maxLength]

theorem jnoRel8 (d : Byte) : Statement (.jnoRel8 d) := by
  intro _ _
  simp [encode, Instr.length, maxLength]

theorem jcRel8 (d : Byte) : Statement (.jcRel8 d) := by
  intro _ _
  simp [encode, Instr.length, maxLength]

theorem jncRel8 (d : Byte) : Statement (.jncRel8 d) := by
  intro _ _
  simp [encode, Instr.length, maxLength]

theorem jzRel8 (d : Byte) : Statement (.jzRel8 d) := by
  intro _ _
  simp [encode, Instr.length, maxLength]

theorem jnzRel8 (d : Byte) : Statement (.jnzRel8 d) := by
  intro _ _
  simp [encode, Instr.length, maxLength]

theorem jsRel8 (d : Byte) : Statement (.jsRel8 d) := by
  intro _ _
  simp [encode, Instr.length, maxLength]

theorem jnsRel8 (d : Byte) : Statement (.jnsRel8 d) := by
  intro _ _
  simp [encode, Instr.length, maxLength]

theorem jlRel8 (d : Byte) : Statement (.jlRel8 d) := by
  intro _ _
  simp [encode, Instr.length, maxLength]

theorem jleRel8 (d : Byte) : Statement (.jleRel8 d) := by
  intro _ _
  simp [encode, Instr.length, maxLength]

theorem callRel32 (d : Word) : Statement (.callRel32 d) := by
  intro _ _
  simp [encode, Instr.length, maxLength]

theorem ret : Statement .ret := by
  intro _ _
  simp [encode, Instr.length, maxLength]

theorem leave : Statement .leave := by
  intro _ _
  simp [encode, Instr.length, maxLength]

theorem intImm8 (v : Byte) : Statement (.intImm8 v) := by
  intro _ _
  simp [encode, Instr.length, maxLength]

theorem inAlDx : Statement .inAlDx := by
  intro _ _
  simp [encode, Instr.length, maxLength]

theorem outDxAl : Statement .outDxAl := by
  intro _ _
  simp [encode, Instr.length, maxLength]

theorem grp83Unimplemented (m : ModRM) : Statement (.grp83Unimplemented m) := by
  intro _ h
  have g := group_length m (Bool.and_eq_true_iff.mp h).1
  simp only [encode, Instr.length, maxLength, List.length_append, List.length_cons, List.length_nil]
  omega

theorem grpFFUnimplemented (m : ModRM) : Statement (.grpFFUnimplemented m) := by
  intro _ h
  have g := group_length m (Bool.and_eq_true_iff.mp h).1
  simp only [encode, Instr.length, maxLength, List.length_append, List.length_cons, List.length_nil]
  omega

theorem unrecognized (b : Byte) : Statement (.unrecognized b) := by
  intro _ _
  simp [encode, Instr.length, maxLength]

end Sys2Proof.Laws.EncodedLength
end

