-- ==== Sys2Proof/Laws/Step.lean ====
section
/-! SUPPORT. Laws/Step.lean: what an instruction, and a step, can do, said once (40_fetch_decode.md R116, R117;
60_exceptions.md R252, R253). -/

namespace Sys2Proof.Machine

open Sys2Proof.Safety

/-! ### The causes an operand access can raise (R251) -/

theorem memRange_legal {c : Config} {a : Word} {n : Nat} {kind : AccessKind} (hn : n = 1 ∨ n = 4) (h : c.memSize < a.toNat + n) :
    fatalLegal c (.memRange a n kind) = true := by
  rcases hn with rfl | rfl <;> simp [fatalLegal, h]

theorem State.memRead8_error_legal {s : State} {a : Word} {kind : AccessKind} {c : FatalCause}
    (h : s.memRead8 a kind = .error c) : fatalLegal s.cfg c = true := by
  by_cases hr : a.toNat + 1 ≤ s.cfg.memSize
  · rw [State.memRead8_ok hr] at h; cases h
  · rw [State.memRead8_error (Nat.not_le.mp hr)] at h; cases h
    exact memRange_legal (.inl rfl) (Nat.not_le.mp hr)

theorem State.memRead32_error_legal {s : State} {a : Word} {kind : AccessKind} {c : FatalCause}
    (h : s.memRead32 a kind = .error c) : fatalLegal s.cfg c = true := by
  by_cases hr : a.toNat + 4 ≤ s.cfg.memSize
  · rw [State.memRead32_ok hr] at h; cases h
  · rw [State.memRead32_error (Nat.not_le.mp hr)] at h; cases h
    exact memRange_legal (.inr rfl) (Nat.not_le.mp hr)

theorem State.memWrite8_error_legal {s : State} {a : Word} {v : Byte} {c : FatalCause}
    (h : s.memWrite8 a v = .error c) : fatalLegal s.cfg c = true := by
  by_cases hr : a.toNat + 1 ≤ s.cfg.memSize
  · rw [State.memWrite8_ok hr] at h; cases h
  · rw [State.memWrite8_error (Nat.not_le.mp hr)] at h; cases h
    exact memRange_legal (.inl rfl) (Nat.not_le.mp hr)

theorem State.memWrite32_error_legal {s : State} {a : Word} {v : Word} {c : FatalCause}
    (h : s.memWrite32 a v = .error c) : fatalLegal s.cfg c = true := by
  by_cases hr : a.toNat + 4 ≤ s.cfg.memSize
  · rw [State.memWrite32_ok hr] at h; cases h
  · rw [State.memWrite32_error (Nat.not_le.mp hr)] at h; cases h
    exact memRange_legal (.inr rfl) (Nat.not_le.mp hr)

/-- An operand that is no register fails to resolve for its SIB byte only: `EA_MODE3` is not reached (R134). -/
theorem State.effAddr_error_legal {s : State} {m : ModRM} {c : FatalCause} (h3 : m.mod ≠ 3) (h : s.effAddr m = .error c) :
    fatalLegal s.cfg c = true := by
  rcases State.effAddr_error h with ⟨h, _⟩ | ⟨_, _, rfl⟩
  · exact absurd h h3
  · simpa only [fatalLegal, bne_iff_ne] using h3

theorem State.readRM32_error_legal {s : State} {m : ModRM} {c : FatalCause} (h : s.readRM32 m = .error c) :
    fatalLegal s.cfg c = true := by
  unfold State.readRM32 at h
  split at h
  · cases h
  · rcases bind_eq_error.mp h with h | ⟨a, _, h⟩
    · exact State.effAddr_error_legal ‹_› h
    · exact State.memRead32_error_legal h

theorem State.readRM8_error_legal {s : State} {m : ModRM} {c : FatalCause} (h : s.readRM8 m = .error c) :
    fatalLegal s.cfg c = true := by
  unfold State.readRM8 at h
  split at h
  · cases h
  · rcases bind_eq_error.mp h with h | ⟨a, _, h⟩
    · exact State.effAddr_error_legal ‹_› h
    · exact State.memRead8_error_legal h

theorem State.writeRM32_error_legal {s : State} {m : ModRM} {v : Word} {c : FatalCause} (h : s.writeRM32 m v = .error c) :
    fatalLegal s.cfg c = true := by
  unfold State.writeRM32 at h
  split at h
  · cases h
  · rcases bind_eq_error.mp h with h | ⟨a, _, h⟩
    · exact State.effAddr_error_legal ‹_› h
    · exact State.memWrite32_error_legal h

theorem State.writeRM8_error_legal {s : State} {m : ModRM} {v : Byte} {c : FatalCause} (h : s.writeRM8 m v = .error c) :
    fatalLegal s.cfg c = true := by
  unfold State.writeRM8 at h
  split at h
  · cases h
  · rcases bind_eq_error.mp h with h | ⟨a, _, h⟩
    · exact State.effAddr_error_legal ‹_› h
    · exact State.memWrite8_error_legal h

theorem State.push32_error_legal {s : State} {v : Word} {c : FatalCause} (h : s.push32 v = .error c) :
    fatalLegal s.cfg c = true := by
  unfold State.push32 at h
  simp only [bind_eq_error, pure_eq_error, and_false, exists_false, or_false] at h
  exact State.memWrite32_error_legal h

theorem State.pop32_error_legal {s : State} {c : FatalCause} (h : s.pop32 = .error c) :
    fatalLegal s.cfg c = true := by
  unfold State.pop32 at h
  simp only [bind_eq_error, pure_eq_error, and_false, exists_false, or_false] at h
  exact State.memRead32_error_legal h

/-! ### What an instruction that completes can change -/

/-- The most a completed instruction can do to `s`: the parameters and the run state stay; at most one event is added;
memory stays, or takes one run of bytes below the bound.  Registers, flags, pc and console input are free here. -/
def Within (s t : State) : Prop :=
  SameRun s t ∧ (∃ es, t.events = s.events ++ es ∧ es.length ≤ 1) ∧
    (t.mem = s.mem ∨ ∃ (a : Nat) (bs : List Byte), a + bs.length ≤ s.cfg.memSize ∧ t.mem = Memory.writeBytes s.mem a bs)

/-- A state that differs in registers, flags and pc alone. -/
theorem Within.of_same {s t : State} (hr : SameRun s t) (he : t.events = s.events) (hm : t.mem = s.mem) : Within s t :=
  ⟨hr, ⟨[], by simp [he], by simp⟩, .inl hm⟩

/-- A state that has one event more. -/
theorem Within.of_event {s t : State} (hr : SameRun s t) {e : Event} (he : t.events = s.events ++ [e])
    (hm : t.mem = s.mem) : Within s t := ⟨hr, ⟨[e], he, by simp⟩, .inl hm⟩

/-- Registers, flags and pc may change after. -/
theorem Within.then_same {s t u : State} (h : Within s t) (hr : SameRun t u) (he : u.events = t.events)
    (hm : u.mem = t.mem) : Within s u := by
  obtain ⟨⟨a, b, c, d⟩, he', hm'⟩ := h
  obtain ⟨a', b', c', d'⟩ := hr
  refine ⟨⟨a'.trans a, b'.trans b, c'.trans c, d'.trans d⟩, ?_, ?_⟩
  · rw [he]; exact he'
  · rw [hm]; exact hm'

theorem State.memWrite32_within {s t : State} {a v : Word} (h : s.memWrite32 a v = .ok t) : Within s t := by
  obtain ⟨hr, rfl⟩ := State.memWrite32_inv h
  exact ⟨⟨rfl, rfl, rfl, rfl⟩, ⟨[], by simp, by simp⟩, .inr ⟨a.toNat, toLE v, hr, rfl⟩⟩

theorem State.memWrite8_within {s t : State} {a : Word} {v : Byte} (h : s.memWrite8 a v = .ok t) : Within s t := by
  obtain ⟨hr, rfl⟩ := State.memWrite8_inv h
  exact ⟨⟨rfl, rfl, rfl, rfl⟩, ⟨[], by simp, by simp⟩, .inr ⟨a.toNat, [v], hr, rfl⟩⟩

theorem State.writeRM32_within {s t : State} {m : ModRM} {v : Word} (h : s.writeRM32 m v = .ok t) : Within s t := by
  unfold State.writeRM32 at h
  split at h
  · cases h; exact .of_same ⟨rfl, rfl, rfl, rfl⟩ rfl rfl
  · obtain ⟨a, _, h⟩ := bind_eq_ok.mp h
    exact State.memWrite32_within h

theorem State.writeRM8_within {s t : State} {m : ModRM} {v : Byte} (h : s.writeRM8 m v = .ok t) : Within s t := by
  unfold State.writeRM8 at h
  split at h
  · cases h; exact .of_same (by simp [SameRun]) (by simp) (by simp)
  · obtain ⟨a, _, h⟩ := bind_eq_ok.mp h
    exact State.memWrite8_within h

theorem State.push32_within {s t : State} {v : Word} (h : s.push32 v = .ok t) : Within s t := by
  unfold State.push32 at h
  simp only [bind_eq_ok, pure_eq_ok] at h
  obtain ⟨u, hu, rfl⟩ := h
  exact (State.memWrite32_within hu).then_same ⟨rfl, rfl, rfl, rfl⟩ rfl rfl

theorem State.pop32_within {s t : State} {v : Word} (h : s.pop32 = .ok (v, t)) : Within s t := by
  unfold State.pop32 at h
  simp only [bind_eq_ok, pure_eq_ok, Prod.mk.injEq] at h
  obtain ⟨_, _, _, rfl⟩ := h
  exact .of_same ⟨rfl, rfl, rfl, rfl⟩ rfl rfl

/-! ### What an instruction can do -/

/-- Every instruction ends by `complete`: its rule's state, or the fatal stop its rule raised. -/
theorem exec_complete (i : Instr) (s : State) : ∃ r, exec i s = complete s r := by
  cases i <;>
    simp only [exec, execMovR32Imm32, execMovRm32Imm32, execMovRm8R8, execMovRm32R32, execMovR8Rm8,
    execMovR32Rm32, execAddRm32R32, execAddRm32Imm8, execSubRm32Imm8, execCmpRm32Imm8, execIncRm32, execIncR32,
    execPushR32, execPopR32, execPushImm32, execPushImm8, execCmpR32Rm32, execCmpAlImm8, execCmpEaxImm32,
    execJmpRel8, execJmpRel32, execJoRel8, execJnoRel8, execJcRel8, execJncRel8, execJzRel8, execJnzRel8,
    execJsRel8, execJnsRel8, execJlRel8, execJleRel8, execCallRel32, execRet, execLeave, execIntImm8, execInAlDx,
    execOutDxAl, execGrp83Unimplemented, execGrpFFUnimplemented, execUnrecognized, jumpIf] <;>
    exact ⟨_, rfl⟩

/-- The most an instruction can do: a fatal stop, for a cause of R251 where it is well-formed, or completion `Within`. -/
def Outcome (wf : Bool) (s t : State) : Prop :=
  (∃ c, t = s.raiseFatal c ∧ (wf = true → fatalLegal s.cfg c = true)) ∨ Within s t

theorem complete_outcome {s t : State} {r : Except FatalCause State} {wf : Bool} (h : complete s r = .next t)
    (he : ∀ c, r = .error c → wf = true → fatalLegal s.cfg c = true) (hk : ∀ u, r = .ok u → Within s u) :
    Outcome wf s t := by
  rcases complete_next.mp h with hr | ⟨c, hr, rfl⟩
  · exact .inr (hk t hr)
  · exact .inl ⟨c, rfl, he c hr⟩

/-- A rule that raises nothing and changes registers, flags and pc alone. -/
theorem ok_outcome {s t u : State} {wf : Bool} (h : complete s (.ok u) = .next t) (hr : SameRun s u)
    (he : u.events = s.events) (hm : u.mem = s.mem) : Outcome wf s t :=
  complete_outcome h (fun _ hc => by cases hc) fun v hv => by cases hv; exact .of_same hr he hm

/-- A rule that raises nothing and adds an event. -/
theorem event_outcome {s t u : State} {wf : Bool} (h : complete s (.ok u) = .next t) (hr : SameRun s u) {e : Event}
    (he : u.events = s.events ++ [e]) (hm : u.mem = s.mem) : Outcome wf s t :=
  complete_outcome h (fun _ hc => by cases hc) fun v hv => by cases hv; exact .of_event hr he hm

/-- A rule that makes one access and then changes registers, flags and pc alone. -/
theorem access_outcome {α : Type} {s t : State} {x : Except FatalCause α} {f : α → State} {wf : Bool}
    (h : complete s (x >>= fun a => pure (f a)) = .next t)
    (he : ∀ c, x = .error c → fatalLegal s.cfg c = true) (hk : ∀ a, x = .ok a → Within s (f a)) :
    Outcome wf s t :=
  complete_outcome h
    (fun c hc _ => he c (by simpa only [bind_eq_error, pure_eq_error, and_false, exists_false, or_false] using hc))
    (fun u hu => by
      simp only [bind_eq_ok, pure_eq_ok] at hu
      obtain ⟨a, ha, rfl⟩ := hu
      exact hk a ha)

/-- A rule that reads the r/m operand, writes it back, and then changes flags and pc alone. -/
theorem update_outcome {s t : State} {m : ModRM} {g : Word → Word} {f : Word → State → State} {wf : Bool}
    (h : complete s (s.readRM32 m >>= fun a => s.writeRM32 m (g a) >>= fun u => pure (f a u)) = .next t)
    (hr : ∀ a u, SameRun u (f a u)) (he : ∀ a u, (f a u).events = u.events) (hm : ∀ a u, (f a u).mem = u.mem) :
    Outcome wf s t :=
  complete_outcome h
    (fun c hc _ => by
      simp only [bind_eq_error, pure_eq_error, and_false, exists_false, or_false] at hc
      rcases hc with hc | ⟨_, _, hc⟩
      · exact State.readRM32_error_legal hc
      · exact State.writeRM32_error_legal hc)
    (fun v hv => by
      simp only [bind_eq_ok, pure_eq_ok] at hv
      obtain ⟨a, _, u, hu, rfl⟩ := hv
      exact (State.writeRM32_within hu).then_same (hr a u) (he a u) (hm a u))

/-- What an instruction can do, over all of them. -/
theorem exec_cases {i : Instr} {s t : State} (h : exec i s = .next t) : Outcome (i.wf s.cfg.opc) s t := by
  have same : ∀ s : State, SameRun s s := fun _ => ⟨rfl, rfl, rfl, rfl⟩
  have jump : ∀ c d, jumpIf c d s = .next t → Outcome (i.wf s.cfg.opc) s t := fun c d h =>
    ok_outcome h (by split <;> exact same s) (by split <;> rfl) (by split <;> rfl)
  cases i with
  | movR32Imm32 r imm => exact ok_outcome h (same s) rfl rfl
  | incR32 r => exact ok_outcome h (same s) rfl rfl
  | cmpAlImm8 imm => exact ok_outcome h (same s) rfl rfl
  | cmpEaxImm32 imm => exact ok_outcome h (same s) rfl rfl
  | jmpRel8 d => exact ok_outcome h (same s) rfl rfl
  | jmpRel32 d => exact ok_outcome h (same s) rfl rfl
  | joRel8 d | jnoRel8 d | jcRel8 d | jncRel8 d | jzRel8 d | jnzRel8 d | jsRel8 d | jnsRel8 d | jlRel8 d | jleRel8 d =>
    exact jump _ d h
  | movRm32Imm32 m imm =>
    exact access_outcome h (fun _ => State.writeRM32_error_legal) fun u hu =>
      (State.writeRM32_within hu).then_same (same u) rfl rfl
  | movRm8R8 m =>
    exact access_outcome h (fun _ => State.writeRM8_error_legal) fun u hu =>
      (State.writeRM8_within hu).then_same (same u) rfl rfl
  | movRm32R32 m =>
    exact access_outcome h (fun _ => State.writeRM32_error_legal) fun u hu =>
      (State.writeRM32_within hu).then_same (same u) rfl rfl
  | movR8Rm8 m =>
    exact access_outcome h (fun _ => State.readRM8_error_legal) fun v _ =>
      .of_same (by simp [SameRun]) (by simp) (by simp)
  | movR32Rm32 m =>
    exact access_outcome h (fun _ => State.readRM32_error_legal) fun v _ => .of_same (same s) rfl rfl
  | cmpRm32Imm8 m imm =>
    exact access_outcome h (fun _ => State.readRM32_error_legal) fun v _ => .of_same (same s) rfl rfl
  | cmpR32Rm32 m =>
    exact access_outcome h (fun _ => State.readRM32_error_legal) fun v _ => .of_same (same s) rfl rfl
  | addRm32R32 m => exact update_outcome (f := fun _ u => u.advance (1 + m.len)) h (fun _ => same) (fun _ _ => rfl) fun _ _ => rfl
  | addRm32Imm8 m imm => exact update_outcome (f := fun _ u => u.advance (2 + m.len)) h (fun _ => same) (fun _ _ => rfl) fun _ _ => rfl
  | subRm32Imm8 m imm =>
    exact update_outcome (f := fun a u => (u.setFlags (subFlags a (sext32 imm))).advance (2 + m.len)) h (fun _ => same)
      (fun _ _ => rfl) fun _ _ => rfl
  | incRm32 m => exact update_outcome (f := fun _ u => u.advance (1 + m.len)) h (fun _ => same) (fun _ _ => rfl) fun _ _ => rfl
  | pushR32 r =>
    exact access_outcome h (fun _ => State.push32_error_legal) fun u hu => (State.push32_within hu).then_same (same u) rfl rfl
  | pushImm32 imm =>
    exact access_outcome h (fun _ => State.push32_error_legal) fun u hu => (State.push32_within hu).then_same (same u) rfl rfl
  | pushImm8 imm =>
    exact access_outcome h (fun _ => State.push32_error_legal) fun u hu => (State.push32_within hu).then_same (same u) rfl rfl
  | callRel32 d =>
    exact access_outcome h (fun _ => State.push32_error_legal) fun u hu => (State.push32_within hu).then_same (same u) rfl rfl
  | popR32 r =>
    exact access_outcome (x := s.pop32) (f := fun vt => (vt.2.setReg r vt.1).advance 1) h (fun _ => State.pop32_error_legal)
      fun vt hu => (State.pop32_within (v := vt.1) (t := vt.2) hu).then_same (same vt.2) rfl rfl
  | leave =>
    exact access_outcome (x := (s.setReg ESP (s.reg EBP)).pop32) (f := fun vt => (vt.2.setReg EBP vt.1).advance 1) h (fun _ => State.pop32_error_legal)
      fun vt hu => (State.pop32_within (v := vt.1) (t := vt.2) hu).then_same (same vt.2) rfl rfl
  | ret =>
    exact access_outcome (x := s.pop32) (f := fun vt => vt.2.setPc vt.1) h (fun _ => State.pop32_error_legal)
      fun vt hu => (State.pop32_within (v := vt.1) (t := vt.2) hu).then_same (same vt.2) rfl rfl
  | intImm8 v =>
    simp only [exec, execIntImm8] at h
    refine complete_outcome h (fun _ hc => by cases hc) fun u hu => ?_
    cases hu
    split
    · split
      · exact .of_event (same s) rfl rfl
      · exact .of_event (same s) rfl rfl
    · exact .of_event (same s) rfl rfl
  | inAlDx =>
    simp only [exec, execInAlDx] at h
    refine complete_outcome h (fun _ hc => by cases hc) fun u hu => ?_
    cases hu
    by_cases hp : s.portNumber = s.cfg.consolePort
    · have poll := s.pollInput_frame
      cases hn : s.nextInput with
      | none =>
        simp only [State.portIn, hp, if_true, hn]
        rw [poll]; exact .of_same (same s) rfl rfl
      | some b =>
        simp only [State.portIn, hp, if_true, hn]
        rw [poll]; exact .of_event (e := .consoleIn b) (by simp [SameRun]) (by simp) (by simp)
    · rw [State.portIn_other hp]
      exact .of_same (by simp [SameRun]) (by simp) (by simp)
  | outDxAl =>
    simp only [exec, execOutDxAl] at h
    refine complete_outcome h (fun _ hc => by cases hc) fun u hu => ?_
    cases hu
    unfold State.portOut
    split
    · exact .of_event (same s) rfl rfl
    · exact .of_same (same s) rfl rfl
  | grp83Unimplemented m =>
    simp only [exec, execGrp83Unimplemented] at h
    refine complete_outcome h (fun c hc hw => ?_) (fun _ hu => by cases hu)
    cases hc
    simp only [Instr.wf, Bool.and_eq_true] at hw
    simp [fatalLegal, hw.2]
  | grpFFUnimplemented m =>
    simp only [exec, execGrpFFUnimplemented] at h
    refine complete_outcome h (fun c hc hw => ?_) (fun _ hu => by cases hu)
    cases hc
    simp only [Instr.wf, Bool.and_eq_true] at hw
    simp only [fatalLegal, hw.2, beq_self_eq_true, Bool.and_self, Bool.or_true]
  | unrecognized b => exact event_outcome h (same s) rfl rfl

/-! ### What a step can do -/

/-- A step of `s` (R116): nothing where the run has ended; else the halt at pc 0, the halt at the bound, the fatal stop of
a fetch, or the execution of the instruction fetched. -/
theorem step_cases {s t : State} (h : step s = .next t) :
    (s.runState ≠ .running ∧ t = s) ∨
    (s.runState = .running ∧ s.pc = 0 ∧ t = s.halt .pcZero) ∨
    (s.runState = .running ∧ s.pc ≠ 0 ∧ s.cfg.memSize ≤ s.pc.toNat ∧ t = s.halt .pcBound) ∨
    (s.runState = .running ∧ s.pc ≠ 0 ∧ s.pc.toNat < s.cfg.memSize ∧
      ((∃ c, s.fetch = .error c ∧ t = s.raiseFatal c) ∨ ∃ i, s.fetch = .ok i ∧ exec i s = .next t)) := by
  unfold step stepWith at h
  cases hr : s.runState <;> simp only [hr] at h
  · split at h
    · cases h; exact .inr (.inl ⟨rfl, ‹_›, rfl⟩)
    split at h
    · cases h; exact .inr (.inr (.inl ⟨rfl, ‹_›, ‹_›, rfl⟩))
    refine .inr (.inr (.inr ⟨rfl, ‹_›, Nat.not_le.mp ‹_›, ?_⟩))
    cases hf : s.fetch with
    | error c => simp only [hf] at h; cases h; exact .inl ⟨c, rfl, rfl⟩
    | ok i => simp only [hf] at h; exact .inr ⟨i, rfl, h⟩
  · cases h; exact .inl ⟨by decide, rfl⟩
  · cases h; exact .inl ⟨by decide, rfl⟩

/-- A fetch fault is a range fault (R111, R251). -/
theorem State.fetch_error_legal {s : State} {c : FatalCause} (h : s.fetch = .error c) :
    fatalLegal s.cfg c = true := by
  rcases decodeWith_error h with h | ⟨k, _, h | h⟩
  · exact State.memRead8_error_legal h
  · exact State.memRead8_error_legal h
  · exact State.memRead32_error_legal h

/-- What is fetched is well-formed. -/
theorem State.fetch_wf {s : State} {i : Instr} (h : s.fetch = .ok i) : i.wf s.cfg.opc = true := decodeWith_wf h

end Sys2Proof.Machine
end

