-- ==== Sys2Proof/Tests/Slice0.lean ====
section
/-! SUPPORT. Tests/Slice0.lean: the model's own tests.  Expected results are those of spec/95_test_vectors.md (its vector ids
are named) or of the worked encodings of 30_encoding.md R98; the rest are witnesses: for each obligation with hypotheses, data that meet
them all. -/

namespace Sys2Proof.Tests

open Sys2Proof Sys2Proof.Machine Sys2Proof.Safety

/-! ### Helpers -/

/-- The state an outcome continues with. -/
def completed (o : Host.Outcome State Fault Refusal) : Option State :=
  match o with
  | .next t => some t
  | _ => none

/-- The reset state with `code` at 0x7c00. -/
def coded (code : List Byte) : State := { State.reset with mem := Memory.writeBytes [] 0x7c00 code }

/-- `s` with bytes stored at `a`. -/
def data (s : State) (a : Nat) (bs : List Byte) : State := { s with mem := Memory.writeBytes s.mem a bs }

/-- `s` with flags CF, ZF, SF, OF. -/
def flagged (s : State) (c z n v : Bool) : State := { s with flags := { CF := c, ZF := z, SF := n, OF := v } }

/-- What a test looks at after one step. -/
def see {α : Type} (s : State) (f : State → α) : Option α := (completed (step s)).map f

/-- The four bytes from `a`. -/
def four (a : Nat) (t : State) : List Byte := [t.byteAt a, t.byteAt (a + 1), t.byteAt (a + 2), t.byteAt (a + 3)]

/-- The flags in the order CF, ZF, SF, OF. -/
def fl (t : State) : List Bool := [t.flags.CF, t.flags.ZF, t.flags.SF, t.flags.OF]

/-- A register descriptor: mode 3. -/
def direct (reg rm : RegNum) : ModRM := ⟨3, reg, rm, none, 0⟩

/-! ### WellFormed: an ill-formed term for each check, refused -/

theorem test_ill_formed_sib_missing : (Instr.movR32Rm32 ⟨0, 1, 4, none, 0⟩).wf .ia32 = false := by decide
theorem test_ill_formed_sib_extra_register : (Instr.movR32Rm32 ⟨3, 1, 4, some 0x24, 0⟩).wf .ia32 = false := by decide
theorem test_ill_formed_sib_extra_memory : (Instr.movRm8R8 ⟨0, 1, 3, some 0x24, 0⟩).wf .ia32 = false := by decide
theorem test_ill_formed_disp_of_no_field : (Instr.addRm32R32 ⟨0, 1, 0, none, 1⟩).wf .ia32 = false := by decide
theorem test_ill_formed_disp_past_one_byte : (Instr.movRm32R32 ⟨1, 1, 0, none, 0x80⟩).wf .ia32 = false := by decide
theorem test_ill_formed_mov_imm32_descriptor : (Instr.movRm32Imm32 ⟨3, 0, 0, none, 1⟩ 0).wf .ia32 = false := by decide
theorem test_ill_formed_mov_r8_descriptor : (Instr.movR8Rm8 ⟨3, 0, 0, none, 1⟩).wf .ia32 = false := by decide
theorem test_ill_formed_cmp_descriptor : (Instr.cmpR32Rm32 ⟨3, 0, 0, none, 1⟩).wf .ia32 = false := by decide
theorem test_ill_formed_add_subopcode : (Instr.addRm32Imm8 ⟨3, 5, 0, none, 0⟩ 1).wf .ia32 = false := by decide
theorem test_ill_formed_sub_subopcode : (Instr.subRm32Imm8 ⟨3, 7, 0, none, 0⟩ 1).wf .ia32 = false := by decide
theorem test_ill_formed_cmp_subopcode : (Instr.cmpRm32Imm8 ⟨3, 0, 0, none, 0⟩ 1).wf .ia32 = false := by decide
theorem test_ill_formed_inc_subopcode : (Instr.incRm32 ⟨3, 6, 0, none, 0⟩).wf .ia32 = false := by decide
theorem test_ill_formed_grp83_implemented : (Instr.grp83Unimplemented ⟨3, 5, 0, none, 0⟩).wf .ia32 = false := by decide
theorem test_ill_formed_grp83_descriptor : (Instr.grp83Unimplemented ⟨3, 1, 0, none, 1⟩).wf .ia32 = false := by decide
theorem test_ill_formed_grpFF_implemented : (Instr.grpFFUnimplemented ⟨3, 0, 0, none, 0⟩).wf .ia32 = false := by decide
theorem test_ill_formed_unrecognized_is_mov : (Instr.unrecognized 0xB8).wf .ia32 = false := by decide
theorem test_ill_formed_unrecognized_is_group : (Instr.unrecognized 0x83).wf .ia32 = false := by decide
theorem test_well_formed_sib : (Instr.movR32Rm32 ⟨2, 1, 4, some 0x24, 0x100⟩).wf .ia32 = true := by decide
theorem test_bad_memory_size : ({ Config.reference with memSize := 0 } : Config).wf = false := by decide

/-! A table for each check of `OpcodeTable.legal`, refused: a family's base off a multiple of 8 (R82), two rows with one byte, a
byte inside a family, two instructions with one sub-opcode. -/

theorem test_illegal_table_base : ({ OpcodeTable.ia32 with incR32 := 0x41 } : OpcodeTable).legal = false := by decide +kernel
theorem test_illegal_table_same_byte : ({ OpcodeTable.ia32 with ret := 0xC9 } : OpcodeTable).legal = false := by decide +kernel
theorem test_illegal_table_in_family : ({ OpcodeTable.ia32 with ret := 0xBB } : OpcodeTable).legal = false := by decide +kernel
theorem test_illegal_table_subopcode : ({ OpcodeTable.ia32 with cmpSub := 5 } : OpcodeTable).legal = false := by decide +kernel

/-- Another legal assignment: RET and LEAVE exchanged, INC r32 at 98 to 9F, the first group at 90 with SUB and CMP at 1 and 2. -/
def otherTable : OpcodeTable :=
  { OpcodeTable.ia32 with ret := 0xC9, leave := 0xC3, incR32 := 0x98, grp83 := 0x90, subSub := 1, cmpSub := 2 }

theorem test_other_table_legal : otherTable.legal = true := by decide +kernel
theorem test_other_table_decodes :
    decode otherTable [0xC9] = .ok .ret ∧ decode otherTable [0x9F] = .ok (.incR32 EDI) ∧
      decode otherTable [0x90, 0xE9, 0x01] = .ok (.grp83Unimplemented ⟨3, 5, ECX, none, 0⟩) ∧
      decode otherTable [0x47] = .ok (.unrecognized 0x47) := by decide

/-! ### Decoding: words written out from the encodings of 30_encoding.md, one or more for every instruction -/


/-- Vector M2. -/
theorem test_decode_mov_r32_imm32 : decode .ia32 [0xBC, 0x00, 0x80, 0x00, 0x00] = .ok (.movR32Imm32 ESP 0x8000) := by decide

/-- Vector M6. -/
theorem test_decode_mov_rm32_imm32 :
    decode .ia32 [0xC7, 0x05, 0x0A, 0x7C, 0x00, 0x00, 0x41, 0x90, 0x90, 0x90] = .ok (.movRm32Imm32 ⟨0, 0, 5, none, 0x7c0a⟩ 0x90909041) := by decide

/-- Vector M4. -/
theorem test_decode_mov_rm32_imm32_any_reg :
    decode .ia32 [0xC7, 0xF9, 0xEF, 0xBE, 0xAD, 0xDE] = .ok (.movRm32Imm32 (direct 7 ECX) 0xDEADBEEF) := by decide

/-- Vector M14. -/
theorem test_decode_mov_rm8_r8 : decode .ia32 [0x88, 0x2B] = .ok (.movRm8R8 ⟨0, CH, EBX, none, 0⟩) := by decide

/-- Vector M10. -/
theorem test_decode_mov_rm32_r32 : decode .ia32 [0x89, 0xE5] = .ok (.movRm32R32 (direct ESP EBP)) := by decide

/-- Vector M15. -/
theorem test_decode_mov_r8_rm8 :
    decode .ia32 [0x8A, 0x0D, 0x01, 0x80, 0x00, 0x00] = .ok (.movR8Rm8 ⟨0, CL, 5, none, 0x8001⟩) := by decide

/-- Vector V10. -/
theorem test_decode_mov_r32_rm32 :
    decode .ia32 [0x8B, 0x8C, 0x24, 0x00, 0x01, 0x00, 0x00] = .ok (.movR32Rm32 ⟨2, ECX, 4, some 0x24, 0x100⟩) := by decide

/-- Vector V11. -/
theorem test_decode_mov_r32_rm32_no_sib : decode .ia32 [0x8B, 0xCC] = .ok (.movR32Rm32 (direct ECX ESP)) := by decide

/-- Vector A1. -/
theorem test_decode_add_rm32_r32 : decode .ia32 [0x01, 0xC8] = .ok (.addRm32R32 (direct ECX EAX)) := by decide

/-- Vector A7. -/
theorem test_decode_add_rm32_imm8 : decode .ia32 [0x83, 0xC4, 0x04] = .ok (.addRm32Imm8 (direct 0 ESP) 4) := by decide

/-- Vector A13. -/
theorem test_decode_sub_rm32_imm8 :
    decode .ia32 [0x83, 0x6D, 0xFC, 0x01] = .ok (.subRm32Imm8 ⟨1, 5, EBP, none, 0xFFFFFFFC⟩ 1) := by decide

/-- Vector A14. -/
theorem test_decode_cmp_rm32_imm8 : decode .ia32 [0x83, 0xF8, 0x05] = .ok (.cmpRm32Imm8 (direct 7 EAX) 5) := by decide

/-- Vector A20. -/
theorem test_decode_inc_rm32 : decode .ia32 [0xFF, 0x45, 0xFC] = .ok (.incRm32 ⟨1, 0, EBP, none, 0xFFFFFFFC⟩) := by decide

/-- Vector A23. -/
theorem test_decode_inc_r32 : decode .ia32 [0x47] = .ok (.incR32 EDI) := by decide

/-- Vector S1. -/
theorem test_decode_push_r32 : decode .ia32 [0x55] = .ok (.pushR32 EBP) := by decide

/-- Vector S5. -/
theorem test_decode_pop_r32 : decode .ia32 [0x5C] = .ok (.popR32 ESP) := by decide

/-- Vector S7. -/
theorem test_decode_push_imm32 : decode .ia32 [0x68, 0x78, 0x56, 0x34, 0x12] = .ok (.pushImm32 0x12345678) := by decide

/-- Vector S10. -/
theorem test_decode_push_imm8 : decode .ia32 [0x6A, 0xFF] = .ok (.pushImm8 0xFF) := by decide

/-- Vector A27. -/
theorem test_decode_cmp_r32_rm32 :
    decode .ia32 [0x3B, 0x0D, 0x00, 0x80, 0x00, 0x00] = .ok (.cmpR32Rm32 ⟨0, ECX, 5, none, 0x8000⟩) := by decide

/-- Vector 2.5, R189. -/
theorem test_decode_cmp_al_imm8 : decode .ia32 [0x3C, 0x71] = .ok (.cmpAlImm8 0x71) := by decide

/-- Vector A28. -/
theorem test_decode_cmp_eax_imm32 : decode .ia32 [0x3D, 0x00, 0x00, 0x00, 0x80] = .ok (.cmpEaxImm32 0x80000000) := by decide

/-- Vector J2. -/
theorem test_decode_jmp_rel8 : decode .ia32 [0xEB, 0xFE] = .ok (.jmpRel8 0xFE) := by decide

/-- Vector J9. -/
theorem test_decode_jmp_rel32 : decode .ia32 [0xE9, 0xFB, 0xFF, 0xFF, 0xFF] = .ok (.jmpRel32 0xFFFFFFFB) := by decide

/-- Vector J16. -/
theorem test_decode_jo : decode .ia32 [0x70, 0x05] = .ok (.joRel8 5) := by decide

/-- Vector J16. -/
theorem test_decode_jno : decode .ia32 [0x71, 0x05] = .ok (.jnoRel8 5) := by decide

/-- Vector J17. -/
theorem test_decode_jc : decode .ia32 [0x72, 0xFE] = .ok (.jcRel8 0xFE) := by decide

/-- Vector J17. -/
theorem test_decode_jnc : decode .ia32 [0x73, 0xFE] = .ok (.jncRel8 0xFE) := by decide

/-- Vector J12. -/
theorem test_decode_jz : decode .ia32 [0x74, 0x02] = .ok (.jzRel8 2) := by decide

/-- Vector J14. -/
theorem test_decode_jnz : decode .ia32 [0x75, 0xF9] = .ok (.jnzRel8 0xF9) := by decide

/-- Vector J18. -/
theorem test_decode_js : decode .ia32 [0x78, 0x7F] = .ok (.jsRel8 0x7F) := by decide

/-- Vector J18. -/
theorem test_decode_jns : decode .ia32 [0x79, 0x7F] = .ok (.jnsRel8 0x7F) := by decide

/-- Vector J19. -/
theorem test_decode_jl : decode .ia32 [0x7C, 0x05] = .ok (.jlRel8 5) := by decide

/-- Vector J21. -/
theorem test_decode_jle : decode .ia32 [0x7E, 0x05] = .ok (.jleRel8 5) := by decide

/-- Vector J23. -/
theorem test_decode_call : decode .ia32 [0xE8, 0x03, 0x00, 0x00, 0x00] = .ok (.callRel32 3) := by decide

/-- Vector J25. -/
theorem test_decode_ret : decode .ia32 [0xC3] = .ok .ret := by decide

/-- Vector S12. -/
theorem test_decode_leave : decode .ia32 [0xC9] = .ok .leave := by decide

/-- Vector I5. -/
theorem test_decode_int : decode .ia32 [0xCD, 0x21] = .ok (.intImm8 0x21) := by decide

/-- Vector I7. -/
theorem test_decode_in_al_dx : decode .ia32 [0xEC] = .ok .inAlDx := by decide

/-- Vector I10. -/
theorem test_decode_out_dx_al : decode .ia32 [0xEE] = .ok .outDxAl := by decide

/-- Vector A17. -/
theorem test_decode_grp83_unimplemented :
    decode .ia32 [0x83, 0x0C, 0x24, 0x01] = .ok (.grp83Unimplemented ⟨0, 1, 4, some 0x24, 0⟩) := by decide

/-- Vector A21. -/
theorem test_decode_grpFF_unimplemented : decode .ia32 [0xFF, 0x30] = .ok (.grpFFUnimplemented ⟨0, 6, EAX, none, 0⟩) := by decide

/-- Vector F5. -/
theorem test_decode_unrecognized : decode .ia32 [0x0F, 0x05] = .ok (.unrecognized 0x0F) := by decide

/-- Vector J28. -/
theorem test_decode_jp_is_unrecognized : decode .ia32 [0x7A, 0x05] = .ok (.unrecognized 0x7A) := by decide

theorem test_decode_truncated : decode .ia32 [0xC7, 0x05, 0x0A, 0x7C, 0x00] = .error (.truncated 2 4) := by decide
theorem test_decode_table_word : decodeTableWord 8 0x89 = some (.movRm32R32 ⟨0, EAX, EAX, none, 0⟩) := by decide
theorem test_decode_table_word_two_bytes : decodeTableWord 16 0xE983 = some (.subRm32Imm8 (direct 5 ECX) 0) := by decide

/-! ### One step of each instruction: the vectors of 95_test_vectors.md part 2 -/


/-- Vector M1. -/
theorem test_step_mov_r32_imm32 :
    see (coded [0xB8, 0x78, 0x56, 0x34, 0x12]) (fun t => (t.reg EAX, t.pc)) = some (0x12345678, 0x7c05) := by decide

/-- Vector M5. -/
theorem test_step_mov_rm32_imm32 :
    see ((coded [0xC7, 0x45, 0xFC, 0x2A, 0x00, 0x00, 0x00]).setReg EBP 0x7bf8) (fun t => (four 0x7bf4 t, t.pc))
      = some ([0x2A, 0, 0, 0], 0x7c07) := by decide

/-- Vector M7. -/
theorem test_step_mov_rm32_imm32_sib :
    see (coded [0xC7, 0x04, 0x24, 0x01, 0x00, 0x00, 0x00]) (fun t => (t.fatal, t.pc, t.mem == (coded [0xC7, 0x04, 0x24, 0x01, 0x00, 0x00, 0x00]).mem))
      = some (some (.sibNotImplemented 0), 0x7c00, true) := by decide

/-- Vector M12. -/
theorem test_step_mov_rm8_r8 :
    see (((coded [0x88, 0xCC]).setReg EAX 0x11223344).setReg ECX 0xAB) (fun t => (t.reg EAX, t.pc))
      = some (0x1122AB44, 0x7c02) := by decide

/-- Vector M14. -/
theorem test_step_mov_rm8_r8_memory :
    see (data (((coded [0x88, 0x2B]).setReg EBX 0x8000).setReg ECX 0xBE00) 0x8001 [0x77]) (four 0x8000)
      = some [0xBE, 0x77, 0, 0] := by decide

/-- Vector M9. -/
theorem test_step_mov_rm32_r32 :
    see ((coded [0x89, 0x00]).setReg EAX 0x8000) (fun t => (four 0x8000 t, t.pc))
      = some ([0x00, 0x80, 0, 0], 0x7c02) := by decide

/-- Vector M8. -/
theorem test_step_mov_rm32_r32_little_endian :
    see ((coded [0x89, 0x05, 0x00, 0x80, 0x00, 0x00]).setReg EAX 0x11223344) (four 0x8000)
      = some [0x44, 0x33, 0x22, 0x11] := by decide

/-- Vector M15. -/
theorem test_step_mov_r8_rm8 :
    see (data ((coded [0x8A, 0x0D, 0x01, 0x80, 0x00, 0x00]).setReg ECX 0xFFFFFF00) 0x8001 [0x56]) (fun t => (t.reg ECX, t.pc))
      = some (0xFFFFFF56, 0x7c06) := by decide

/-- Vector M16. -/
theorem test_step_mov_r8_rm8_high :
    see ((coded [0x8A, 0xF8]).setReg EAX 0x5A) (fun t => t.reg EBX) = some 0x5A00 := by decide

/-- Vector V6. -/
theorem test_step_mov_r32_rm32_disp_zero :
    see (data ((coded [0x8B, 0x4D, 0x00]).setReg EBP 0x8000) 0x8000 [0xDD, 0xCC, 0xBB, 0xAA]) (fun t => (t.reg ECX, t.pc))
      = some (0xAABBCCDD, 0x7c03) := by decide

/-- Vector V7. -/
theorem test_step_mov_r32_rm32_wrap :
    see ((coded [0x8B, 0x48, 0xFE]).setReg EAX 1) (fun t => (t.fatal, t.pc, t.reg ECX))
      = some (some (.memRange 0xFFFFFFFF 4 .read), 0x7c00, 0) := by decide

/-- Vector A2. -/
theorem test_step_add_rm32_r32 :
    see (((coded [0x01, 0xC8]).setReg EAX 0xFFFFFFFF).setReg ECX 1) (fun t => (t.reg EAX, fl t, t.pc))
      = some (0, [false, false, false, false], 0x7c02) := by decide

/-- Vector A3. -/
theorem test_step_add_rm32_r32_same :
    see ((coded [0x01, 0xC0]).setReg EAX 0x80000001) (fun t => t.reg EAX) = some 2 := by decide

/-- Vector A6. -/
theorem test_step_add_rm32_imm8 :
    see (coded [0x83, 0xC0, 0xFF]) (fun t => (t.reg EAX, fl t))
      = some (0xFFFFFFFF, [false, false, false, false]) := by decide

/-- Vector A9. -/
theorem test_step_sub_rm32_imm8 :
    see (coded [0x83, 0xE8, 0xFF]) (fun t => (t.reg EAX, fl t, t.pc))
      = some (1, [true, false, false, false], 0x7c03) := by decide

/-- Vector A13. -/
theorem test_step_sub_rm32_imm8_memory :
    see ((coded [0x83, 0x6D, 0xFC, 0x01]).setReg EBP 0x8004) (fun t => (four 0x8000 t, fl t, t.pc))
      = some ([0xFF, 0xFF, 0xFF, 0xFF], [true, false, true, false], 0x7c04) := by decide

/-- Vector A14. -/
theorem test_step_cmp_rm32_imm8 :
    see ((coded [0x83, 0xF8, 0x05]).setReg EAX 3) (fun t => (t.reg EAX, fl t))
      = some (3, [true, false, true, false]) := by decide

/-- Vector A18. -/
theorem test_step_inc_rm32 :
    see (data (flagged ((coded [0xFF, 0x00]).setReg EAX 0x8000) true false true true) 0x8000 [0xFF, 0xFF, 0xFF, 0xFF]) (fun t => (four 0x8000 t, fl t, t.pc))
      = some ([0, 0, 0, 0], [true, false, true, true], 0x7c02) := by decide

/-- Vector A22. -/
theorem test_step_inc_r32 :
    see ((coded [0x41]).setReg ECX 0x7FFFFFFF) (fun t => (t.reg ECX, fl t, t.pc))
      = some (0x80000000, [false, false, false, false], 0x7c01) := by decide

/-- Vector S2. -/
theorem test_step_push_esp :
    see (coded [0x54]) (fun t => (four 0x7bfc t, t.reg ESP)) = some ([0x00, 0x7C, 0, 0], 0x7bfc) := by decide

/-- Vector S3. -/
theorem test_step_push_r32_out_of_range :
    see ((coded [0x50]).setReg ESP 2) (fun t => (t.fatal, t.reg ESP, t.pc))
      = some (some (.memRange 0xFFFFFFFE 4 .write), 2, 0x7c00) := by decide

/-- Vector S5. -/
theorem test_step_pop_esp :
    see (data ((coded [0x5C]).setReg ESP 0x7000) 0x7000 [0x34, 0x12]) (fun t => (t.reg ESP, t.pc))
      = some (0x1234, 0x7c01) := by decide

/-- Vector S6. -/
theorem test_step_pop_r32_out_of_range :
    see ((coded [0x58]).setReg ESP 0xFFFE) (fun t => (t.fatal, t.reg ESP))
      = some (some (.memRange 0xFFFE 4 .read), 0xFFFE) := by decide

/-- Vector S7. -/
theorem test_step_push_imm32 :
    see (coded [0x68, 0x78, 0x56, 0x34, 0x12]) (fun t => (four 0x7bfc t, t.reg ESP, t.pc))
      = some ([0x78, 0x56, 0x34, 0x12], 0x7bfc, 0x7c05) := by decide

/-- Vector S10. -/
theorem test_step_push_imm8_sign : see (coded [0x6A, 0xFF]) (four 0x7bfc) = some [0xFF, 0xFF, 0xFF, 0xFF] := by decide

/-- Vector S11. -/
theorem test_step_push_imm8_zero :
    see { coded [0x6A, 0xFF] with cfg := { Config.reference with pushImm8Ext := .zero } } (four 0x7bfc)
      = some [0xFF, 0, 0, 0] := by decide

/-- Vector A27. -/
theorem test_step_cmp_r32_rm32 :
    see (data ((coded [0x3B, 0x0D, 0x00, 0x80, 0x00, 0x00]).setReg ECX 0x80000000) 0x8000 [1]) (fun t => (fl t, t.pc))
      = some ([false, false, false, true], 0x7c06) := by decide

/-- Vector 2.5, R189. -/
theorem test_step_cmp_al_imm8_sign :
    see ((coded [0x3C, 0x01]).setReg EAX 0x12345680) (fun t => (fl t, t.pc))
      = some ([false, false, true, false], 0x7c02) := by decide

/-- Vector 2.5, R189. -/
theorem test_step_cmp_al_imm8_zero :
    see { (coded [0x3C, 0x01]).setReg EAX 0x12345680 with cfg := { Config.reference with cmpAlImm8Ext := .zero } } fl = some [false, false, false, false] := by decide

/-- Vector A28. -/
theorem test_step_cmp_eax_imm32 :
    see (coded [0x3D, 0x00, 0x00, 0x00, 0x80]) (fun t => (fl t, t.pc))
      = some ([true, false, true, true], 0x7c05) := by decide

/-- Vector J4. -/
theorem test_step_jmp_rel8 : see (coded [0xEB, 0x80]) State.pc = some 0x7b82 := by decide

/-- Vector J11. -/
theorem test_step_jmp_rel32 : see (coded [0xE9, 0x00, 0x84, 0xFF, 0xFF]) State.pc = some 5 := by decide

/-- Vector J16. -/
theorem test_step_jo : see (flagged (coded [0x70, 0x05]) false false false true) State.pc = some 0x7c07 := by decide

/-- Vector J16. -/
theorem test_step_jno : see (flagged (coded [0x71, 0x05]) false false false true) State.pc = some 0x7c02 := by decide

/-- Vector J17. -/
theorem test_step_jc : see (flagged (coded [0x72, 0xFE]) true false true false) State.pc = some 0x7c00 := by decide

/-- Vector J17. -/
theorem test_step_jnc : see (flagged (coded [0x73, 0xFE]) true false true false) State.pc = some 0x7c02 := by decide

/-- Vector J12. -/
theorem test_step_jz : see (flagged (coded [0x74, 0x02]) false true false false) State.pc = some 0x7c04 := by decide

/-- Vector J14. -/
theorem test_step_jnz : see (flagged (coded [0x75, 0xF9]) false false false false) State.pc = some 0x7bfb := by decide

/-- Vector J18. -/
theorem test_step_js : see (flagged (coded [0x78, 0x7F]) true false true false) State.pc = some 0x7c81 := by decide

/-- Vector J18. -/
theorem test_step_jns : see (flagged (coded [0x79, 0x7F]) true false true false) State.pc = some 0x7c02 := by decide

/-- Vector J19. -/
theorem test_step_jl : see (flagged (coded [0x7C, 0x05]) false false false true) State.pc = some 0x7c07 := by decide

/-- Vector J20. -/
theorem test_step_jl_not : see (flagged (coded [0x7C, 0x05]) true false true true) State.pc = some 0x7c02 := by decide

/-- Vector J21. -/
theorem test_step_jle : see (flagged (coded [0x7E, 0x05]) false true false false) State.pc = some 0x7c07 := by decide

/-- Vector 2.3, row 5. -/
theorem test_step_jle_not : see (flagged (coded [0x7E, 0x05]) true false true true) State.pc = some 0x7c02 := by decide

/-- Vector J23. -/
theorem test_step_call :
    see (coded [0xE8, 0x03, 0x00, 0x00, 0x00]) (fun t => (four 0x7bfc t, t.reg ESP, t.pc))
      = some ([0x05, 0x7C, 0, 0], 0x7bfc, 0x7c08) := by decide

/-- Vector J26. -/
theorem test_step_ret : see (coded [0xC3]) (fun t => (t.reg ESP, t.pc)) = some (0x7c04, 0xC3) := by decide

/-- Vector S12. -/
theorem test_step_leave :
    see (data ((coded [0xC9]).setReg EBP 0x7bf8) 0x7bf8 [0x11]) (fun t => (t.reg ESP, t.reg EBP, t.pc))
      = some (0x7bfc, 0x11, 0x7c01) := by decide

/-- Vector S13. -/
theorem test_step_leave_out_of_range :
    see ((coded [0xC9]).setReg EBP 0xFFFE) (fun t => (t.fatal, t.reg ESP, t.reg EBP))
      = some (some (.memRange 0xFFFE 4 .read), 0x7c00, 0xFFFE) := by decide

/-- Vector I2. -/
theorem test_step_int_teletype :
    see (((coded [0xCD, 0x10]).setReg EAX 0x0E42).setReg EBX 0xFFFFFF02) (fun t => (t.events, t.pc))
      = some ([.display 0x42 2 0], 0x7c02) := by decide

/-- Vector I5. -/
theorem test_step_int_unhandled :
    see (coded [0xCD, 0x21]) (fun t => (t.events, t.pc, t.runState))
      = some ([.unhandledInterrupt 0x21], 0x7c02, .running) := by decide

/-- Vector I8. -/
theorem test_step_in_al_dx :
    see { (coded [0xEC]).setReg EDX 0xABCD03F8 with consoleIn := [0x0D, 0x0A] } (fun t => (t.reg EAX, t.events, t.consoleIn, t.pc))
      = some (0x0D, [.consoleIn 0x0D], [0x0A], 0x7c01) := by decide

/-- Vector I9. -/
theorem test_step_in_al_dx_other_port :
    see ((coded [0xEC]).setReg EAX 0xFFFFFFFF) (fun t => (t.reg EAX, t.events)) = some (0xFFFFFF00, []) := by decide

/-- Vector I10. -/
theorem test_step_out_dx_al :
    see (((coded [0xEE]).setReg EDX 0x3F8).setReg EAX 0x41) (fun t => (t.events, t.pc))
      = some ([.consoleOut 0x41], 0x7c01) := by decide

/-- Vector I11. -/
theorem test_step_out_dx_al_other_port :
    see (((coded [0xEE]).setReg EDX 0x3F9).setReg EAX 0x41) (fun t => (t.events, t.pc)) = some ([], 0x7c01) := by decide

/-- Vector A17. -/
theorem test_step_grp83_unimplemented :
    see (coded [0x83, 0x0C, 0x24, 0x01]) (fun t => (t.fatal, t.pc))
      = some (some (.subopcodeNotImplemented 0x83 1), 0x7c00) := by decide

/-- Log 25: the cause names the opcode byte that the assignment gives the group. -/
theorem test_step_grp83_other_table :
    see { coded [0x90, 0xE9] with cfg := { Config.reference with opc := otherTable } } State.fatal
      = some (some (.subopcodeNotImplemented 0x90 5)) := by decide

/-- Vector A21. -/
theorem test_step_grpFF_unimplemented :
    see (coded [0xFF, 0x30]) (fun t => (t.fatal, t.pc)) = some (some (.subopcodeNotImplemented 0xFF 6), 0x7c00) := by decide

/-- Vector F4. -/
theorem test_step_unrecognized :
    see (coded [0x90]) (fun t => (t.events, t.pc, t.runState))
      = some ([.unrecognizedOpcode 0x90 0x7c00], 0, .running) := by decide

/-! ### The step, fetch faults and flags -/


/-- Vector F1. -/
theorem test_step_halt_at_zero :
    see { State.reset with pc := 0 } (fun t => (t.runState, t.haltCause, t.events))
      = some (.halted, .pcZero, [.halted .pcZero]) := by decide

/-- Vector F2. -/
theorem test_step_halt_at_bound :
    see { State.reset with pc := 0x10000 } (fun t => (t.runState, t.haltCause)) = some (.halted, .pcBound) := by decide

/-- Vector F6. -/
theorem test_step_fetch_immediate_past_bound :
    see { coded [0x90, 0xB8, 0x01, 0x02] with pc := 0x7c01, cfg := { Config.reference with memSize := 0x7c04 } } (fun t => (t.fatal, t.pc, t.reg EAX))
      = some (some (.memRange 0x7c02 4 .fetch), 0x7c01, 0) := by decide

/-- Vector X4. -/
theorem test_step_fetch_sib_before_subopcode :
    see { coded [0x83, 0x0C] with cfg := { Config.reference with memSize := 0x7c02 } } State.fatal = some (some (.memRange 0x7c02 1 .fetch)) := by decide

/-- Vector X6. -/
theorem test_step_fetch_before_address :
    see (coded [0x83, 0x04, 0x24, 0x01]) State.fatal = some (some (.sibNotImplemented 0)) := by decide

/-- Assumption log 9: the placed instruction is the one the next step runs. -/
theorem test_step_fetched_word_table :
    see (State.reset.withFetchWord 8 0xEE) (fun t => (t.pc, t.events)) = some (0x7c01, []) := by decide

/-- T1, fourth row: 0x80000000 - 1. -/
theorem test_flags_signed_overflow :
    subFlags 0x80000000 1 = { CF := false, ZF := false, SF := false, OF := true } := by decide

/-- T1, sixth row: 0 - 0x80000000. -/
theorem test_flags_borrow_and_overflow :
    subFlags 0 0x80000000 = { CF := true, ZF := false, SF := true, OF := true } := by decide

/-- R27: the flags word, CF bit 0, ZF bit 6, SF bit 7, OF bit 11. -/
theorem test_flags_word :
    [Flags.word ⟨true, false, false, false⟩, Flags.word ⟨false, true, false, false⟩,
      Flags.word ⟨false, false, true, false⟩, Flags.word ⟨false, false, false, true⟩] = [1, 0x40, 0x80, 0x800] := by decide

/-- T2: a word read one byte further on. -/
theorem test_unaligned_read :
    (data State.reset 0x8000 [0x44, 0x33, 0x22, 0x11]).memRead32 0x8001 .read = .ok 0x00112233 := by decide

/-! ### Witnesses: data that meet the hypotheses of each obligation -/

/-- The reset state: 0x10000 bytes of memory, every register but ESP at 0. -/
def w0 : State := State.reset

/-- A descriptor with a SIB byte and a four-byte displacement, the longest there is. -/
theorem witness_EncodeThenDecode :
    OpcodeTable.ia32.legal = true ∧ (Instr.movRm32Imm32 ⟨2, 7, 4, some 0x24, 0x80000000⟩ 0xFFFFFFFF).wf .ia32 = true := by
  decide +kernel

/-- An assignment that is not the default one, with an instruction whose byte it changes. -/
theorem witness_EncodeThenDecode_other_table :
    otherTable.legal = true ∧ (Instr.subRm32Imm8 ⟨1, 1, EBP, none, 0xFFFFFFFC⟩ 1).wf otherTable = true := by decide +kernel

theorem witness_DecodeThenEncode : decode .ia32 [0x83, 0x7D, 0x80, 0xFF, 0x00] = .ok (.cmpRm32Imm8 ⟨1, 7, EBP, none, 0xFFFFFF80⟩ 0xFF) := by
  decide

/-- Ten of the eleven bytes of the longest instruction. -/
theorem witness_OnlyTruncationIsRefused :
    decode .ia32 [0xC7, 0x84, 0x24, 0x00, 0x01, 0x00, 0x00, 0x2A, 0x00, 0x00] = .error (.truncated 7 4) := by decide

theorem witness_UnrecognizedBytes_other_table : decode otherTable [0x40, 0xC9] = .ok (.unrecognized 0x40) := by decide

theorem witness_OnlyTruncationIsRefused_empty : decode .ia32 [] = .error (.truncated 0 1) := by decide

/-- Where the list of R94 ends and a recognized byte begins. -/
theorem witness_UnrecognizedBytes :
    decode .ia32 [0x3A] = .ok (.unrecognized 0x3A) ∧ unrecognizedFirstByte 0x3A = true ∧ unrecognizedFirstByte 0x3B = false ∧
      unrecognizedFirstByte 0xFE = true ∧ unrecognizedFirstByte 0xFF = false := by decide

/-- The last byte of memory holds a one-byte instruction. -/
def wLast : State := { State.reset with pc := 0xFFFF, mem := [(0xFFFF, 0x40)] }

theorem witness_StepRunsTheInstructionAtPc :
    wLast.runState = .running ∧ wLast.cfg.wf = true ∧ wLast.pc ≠ 0 ∧
      wLast.pc.toNat + ([0x40] : List Byte).length ≤ wLast.cfg.memSize ∧
      (∀ k, (h : k < ([0x40] : List Byte).length) → wLast.byteAt (wLast.pc.toNat + k) = ([0x40] : List Byte)[k]) ∧
      decode .ia32 [0x40] = .ok (.incR32 EAX) := by
  refine ⟨rfl, by decide, by decide, by decide, ?_, by decide⟩
  intro k h
  have : k = 0 := by simpa using h
  subst this
  exact (by decide : wLast.byteAt (wLast.pc.toNat + 0) = 0x40)

theorem witness_StepHalts_zero : ({ w0 with pc := 0 } : State).runState = .running ∧ ({ w0 with pc := 0 } : State).pc = 0 := by
  decide

theorem witness_StepHalts_bound :
    let s : State := { w0 with pc := 0x10000 }
    s.runState = .running ∧ s.pc ≠ 0 ∧ s.cfg.memSize ≤ s.pc.toNat := by decide

theorem witness_StepHalts_top :
    let s : State := { w0 with pc := 0xFFFFFFFF }
    s.runState = .running ∧ s.pc ≠ 0 ∧ s.cfg.memSize ≤ s.pc.toNat := by decide

theorem witness_StoppedStates :
    (w0.halt .pcZero).runState ≠ .running ∧ (w0.raiseFatal (.sibNotImplemented 0)).runState ≠ .running := by decide

/-- Vector P10: the immediate of `B8` ends past the bound. -/
def wStraddle : State :=
  { coded [0x40, 0xB8, 0x01, 0x02] with pc := 0x7c01, cfg := { Config.reference with memSize := 0x7c04 } }

theorem witness_FetchPastTheBoundIsFatal :
    wStraddle.runState = .running ∧ 1 ≤ wStraddle.cfg.memSize ∧ wStraddle.cfg.memSize < 2 ^ 32 ∧ wStraddle.pc ≠ 0 ∧
      wStraddle.pc.toNat < wStraddle.cfg.memSize ∧
      wStraddle.pc.toNat + ([0xB8, 0x01, 0x02] : List Byte).length = wStraddle.cfg.memSize ∧
      (∀ j, (h : j < ([0xB8, 0x01, 0x02] : List Byte).length) →
        wStraddle.byteAt (wStraddle.pc.toNat + j) = ([0xB8, 0x01, 0x02] : List Byte)[j]) ∧
      decode wStraddle.cfg.opc [0xB8, 0x01, 0x02] = .error (.truncated 1 4) := by
  refine ⟨rfl, by decide, by decide, by decide, by decide, by decide, ?_, by decide⟩
  intro j h
  obtain rfl | rfl | rfl : j = 0 ∨ j = 1 ∨ j = 2 := by simp at h; omega
  · exact (by decide : wStraddle.byteAt (wStraddle.pc.toNat + 0) = 0xB8)
  · exact (by decide : wStraddle.byteAt (wStraddle.pc.toNat + 1) = 0x01)
  · exact (by decide : wStraddle.byteAt (wStraddle.pc.toNat + 2) = 0x02)

/-- The same at the largest bound the statement covers, with the opcode byte the last of memory. -/
def wStraddleTop : State :=
  { State.reset with pc := 0xFFFFFFFE, mem := [(0xFFFFFFFE, 0xEB)], cfg := { Config.reference with memSize := 0xFFFFFFFF } }

theorem witness_FetchPastTheBoundIsFatal_top :
    wStraddleTop.runState = .running ∧ 1 ≤ wStraddleTop.cfg.memSize ∧ wStraddleTop.cfg.memSize < 2 ^ 32 ∧ wStraddleTop.pc ≠ 0 ∧
      wStraddleTop.pc.toNat < wStraddleTop.cfg.memSize ∧
      wStraddleTop.pc.toNat + ([0xEB] : List Byte).length = wStraddleTop.cfg.memSize ∧
      (∀ j, (h : j < ([0xEB] : List Byte).length) → wStraddleTop.byteAt (wStraddleTop.pc.toNat + j) = ([0xEB] : List Byte)[j]) ∧
      decode wStraddleTop.cfg.opc [0xEB] = .error (.truncated 1 1) := by
  refine ⟨rfl, by decide, by decide, by decide, by decide, by decide, ?_, by decide⟩
  intro j h
  have : j = 0 := by simpa using h
  subst this
  exact (by decide : wStraddleTop.byteAt (wStraddleTop.pc.toNat + 0) = 0xEB)

theorem witness_FatalStepsArePrecise :
    wStraddle.runState = .running ∧ ∃ t, step wStraddle = .next t ∧ t.runState = .fatal := ⟨by decide, _, rfl, by decide⟩

theorem witness_HaltsOnlyAtZeroOrBound :
    w0.runState = .running ∧ (∃ t, step { w0 with pc := 0 } = .next t ∧ t.runState = .halted) ∧
      ∃ t, step { w0 with pc := 0x10000 } = .next t ∧ t.runState = .halted :=
  ⟨by decide, ⟨_, rfl, by decide⟩, _, rfl, by decide⟩

theorem witness_EveryStepKeepsTheMachineInvariant : Inv (coded [0x40]) ∧ ∃ t, step (coded [0x40]) = .next t :=
  ⟨⟨by decide, by decide, rfl, rfl⟩, _, rfl⟩

/-- The invariant holds of a stopped machine too. -/
theorem witness_EveryStepKeepsTheMachineInvariant_fatal :
    Inv (w0.raiseFatal (.memRange 0xFFFD 4 .read)) ∧ Inv ({ w0 with pc := 0x10000 }.halt .pcBound) :=
  ⟨⟨by decide, by decide, rfl, _, rfl, by decide⟩, by decide, by decide, rfl, .inr ⟨rfl, by decide⟩⟩

theorem witness_ParametersNeverChange : ∃ t, step w0 = .next t := ⟨_, rfl⟩

theorem witness_EventsAreAppended : ∃ t, step (coded [0xEB, 0xFE]) = .next t := ⟨_, rfl⟩

theorem witness_Flags_written : ∃ t, exec (.cmpEaxImm32 1) w0 = .next t ∧ t.flags ≠ w0.flags := ⟨_, rfl, by decide⟩

theorem witness_Flags_read : ∃ t, exec (.incR32 EAX) w0 = .next t := ⟨_, rfl⟩

theorem witness_CompareAl_extensions : Ext.sign = .sign ∧ Ext.zero = .zero := ⟨rfl, rfl⟩

theorem witness_WriteThenRead_at_bound :
    (0xFFFC : Word).toNat + 4 ≤ w0.cfg.memSize ∧ (0xFFFF : Word).toNat + 1 ≤ w0.cfg.memSize := by decide

theorem witness_StoreIsLittleEndian :
    (0xFFFC : Word).toNat + 4 ≤ w0.cfg.memSize ∧ 3 < 4 ∧ ((0xFFFC : Word) + BitVec.ofNat 32 3).toNat = (0xFFFC : Word).toNat + 3 := by
  decide

/-- Each of the four ranges at its boundary, and the sum that would wrap. -/
theorem witness_RangeFaults :
    w0.cfg.memSize < (0x10000 : Word).toNat + 1 ∧ (0xFFFF : Word).toNat + 1 ≤ w0.cfg.memSize ∧
      w0.cfg.memSize < (0xFFFD : Word).toNat + 4 ∧ (0xFFFC : Word).toNat + 4 ≤ w0.cfg.memSize ∧
      w0.cfg.memSize < (0xFFFFFFFF : Word).toNat + 4 := by decide

theorem witness_ByteViews : (7 : Nat) < 8 ∧ viewOwner BL = EBX ∧ viewOwner AH = EAX := by decide

/-- Each clause of the address table, at each of its cells. -/
theorem witness_EffectiveAddressTable :
    (⟨0, 0, 4, some 0, 0⟩ : ModRM).mod = 0 ∧ (⟨0, 0, 4, some 0, 0⟩ : ModRM).rm = 4 ∧
      (⟨0, 0, 5, none, 9⟩ : ModRM).mod = 0 ∧ (⟨0, 0, 5, none, 9⟩ : ModRM).rm = 5 ∧
      (⟨0, 0, 7, none, 0⟩ : ModRM).rm ≠ 4 ∧ (⟨0, 0, 7, none, 0⟩ : ModRM).rm ≠ 5 ∧
      (⟨1, 0, 4, some 0, 1⟩ : ModRM).mod = 1 ∧ (⟨1, 0, 4, some 0, 1⟩ : ModRM).rm = 4 ∧
      (⟨1, 0, 5, none, 0⟩ : ModRM).mod = 1 ∧ (⟨1, 0, 5, none, 0⟩ : ModRM).rm = 5 ∧
      (⟨1, 0, 3, none, 0⟩ : ModRM).rm ≠ 4 ∧
      (⟨2, 0, 4, some 0, 1⟩ : ModRM).mod = 2 ∧ (⟨2, 0, 4, some 0, 1⟩ : ModRM).rm = 4 ∧
      (⟨2, 0, 5, none, 0⟩ : ModRM).mod = 2 ∧ (⟨2, 0, 5, none, 0⟩ : ModRM).rm = 5 ∧
      (⟨2, 0, 3, none, 0⟩ : ModRM).rm ≠ 4 ∧ (direct 0 4).mod = 3 := by decide

theorem witness_NegativeDisplacementExample : (w0.setReg EAX 100).reg 0 = 100 := by decide

/-- One witness for each of the eleven instructions with a memory operand. -/
theorem witness_SibFormsAreFatal :
    (⟨0, 0, 4, some 0x24, 0⟩ : ModRM).mod ≠ 3 ∧ (⟨0, 0, 4, some 0x24, 0⟩ : ModRM).rm = 4 ∧
      ([.movRm32Imm32 ⟨0, 0, 4, some 0x24, 0⟩ 1, .movRm8R8 ⟨0, 0, 4, some 0x24, 0⟩, .movRm32R32 ⟨0, 0, 4, some 0x24, 0⟩,
        .movR8Rm8 ⟨0, 0, 4, some 0x24, 0⟩, .movR32Rm32 ⟨0, 0, 4, some 0x24, 0⟩, .addRm32R32 ⟨0, 0, 4, some 0x24, 0⟩,
        .addRm32Imm8 ⟨0, 0, 4, some 0x24, 0⟩ 1, .subRm32Imm8 ⟨0, 5, 4, some 0x24, 0⟩ 1, .cmpRm32Imm8 ⟨0, 7, 4, some 0x24, 0⟩ 1,
        .incRm32 ⟨0, 0, 4, some 0x24, 0⟩, .cmpR32Rm32 ⟨0, 0, 4, some 0x24, 0⟩] : List Instr).all (Instr.wf .ia32) = true := by decide

/-- A 32-bit operand one byte past the bound, and an 8-bit one at it. -/
theorem witness_OperandsPastTheBound :
    w0.effAddr ⟨0, 0, 5, none, 0xFFFD⟩ = .ok 0xFFFD ∧ w0.cfg.memSize < (0xFFFD : Word).toNat + 4 ∧
      w0.effAddr ⟨0, 0, 5, none, 0x10000⟩ = .ok 0x10000 ∧ w0.cfg.memSize < (0x10000 : Word).toNat + 1 := by decide

theorem witness_Accessible_register : Accessible 4 (direct 1 ESP) w0 ∧ Accessible 1 (direct 1 AH) w0 := ⟨.inl rfl, .inl rfl⟩

/-- The last word and the last byte of memory, through EBP and a displacement. -/
theorem witness_Accessible_memory_at_bound :
    Accessible 4 ⟨1, 1, EBP, none, 0xFFFFFFFC⟩ (w0.setReg EBP 0x10000) ∧
      Accessible 1 ⟨1, 1, EBP, none, 0xFFFFFFFF⟩ (w0.setReg EBP 0x10000) :=
  ⟨.inr ⟨0xFFFC, by decide, by decide⟩, .inr ⟨0xFFFF, by decide, by decide⟩⟩

theorem witness_Operand32_register : Operand32 (direct 1 ESP) w0 0x7c00 := .inl ⟨rfl, by decide⟩

theorem witness_Operand32_memory_at_bound :
    Operand32 ⟨0, 1, 5, none, 0xFFFC⟩ (data w0 0xFFFC [0x78, 0x56, 0x34, 0x12]) 0x12345678 :=
  .inr ⟨0xFFFC, by decide, by decide, by decide⟩

theorem witness_Operand8_register : Operand8 (direct 1 AH) (w0.setReg EAX 0xAB00) 0xAB := .inl ⟨rfl, by decide⟩

theorem witness_Operand8_memory_at_bound : Operand8 ⟨0, 1, 5, none, 0xFFFF⟩ (data w0 0xFFFF [0x5A]) 0x5A :=
  .inr ⟨0xFFFF, by decide, by decide, by decide⟩

/-- `WroteRM32` and `WroteRM8` speak of register and of memory operands. -/
theorem witness_WroteRM : (direct 0 0).mod = 3 ∧ (⟨0, 1, 5, none, 0xFFFC⟩ : ModRM).mod ≠ 3 := by decide

/-- A push into the four lowest bytes, one into the four highest, and one that is out of range. -/
theorem witness_Push :
    ((w0.setReg ESP 4).reg ESP - 4).toNat + 4 ≤ w0.cfg.memSize ∧
      ((w0.setReg ESP 0x10000).reg ESP - 4).toNat + 4 ≤ w0.cfg.memSize ∧
      w0.cfg.memSize < ((w0.setReg ESP 3).reg ESP - 4).toNat + 4 := by decide

/-- A pop of the four highest bytes, and one that is out of range by a byte. -/
theorem witness_Pop :
    ((w0.setReg ESP 0xFFFC).reg ESP).toNat + 4 ≤ w0.cfg.memSize ∧
      w0.cfg.memSize < ((w0.setReg ESP 0xFFFD).reg ESP).toNat + 4 := by decide

theorem witness_PushThenPop : EBP ≠ ESP ∧ (w0.reg ESP - 4).toNat + 4 ≤ w0.cfg.memSize := by decide

theorem witness_Leave :
    ((w0.setReg EBP 0xFFFC).reg EBP).toNat + 4 ≤ w0.cfg.memSize ∧
      w0.cfg.memSize < ((w0.setReg EBP 0xFFFD).reg EBP).toNat + 4 := by decide

/-- Each of the ten rows, taken or not, in one state. -/
theorem witness_ConditionalJumps :
    let s := flagged w0 true false true true
    s.flags.OF = true ∧ (!s.flags.OF) = false ∧ s.flags.CF = true ∧ (!s.flags.CF) = false ∧ s.flags.ZF = false ∧
      (!s.flags.ZF) = true ∧ s.flags.SF = true ∧ (!s.flags.SF) = false ∧ decide (s.flags.SF ≠ s.flags.OF) = false ∧
      (s.flags.ZF || decide (s.flags.SF ≠ s.flags.OF)) = false := by decide

theorem witness_RetAfterCallReturns : (w0.reg ESP - 4).toNat + 4 ≤ w0.cfg.memSize := by decide

theorem witness_TeletypeEmitsOneTriple : (w0.setReg EAX 0x0E20).reg8 AH = 0x0E := by decide

theorem witness_TeletypeBrightRedExample :
    let s := (w0.setReg EAX 0x0E41).setReg EBX 0xFFFFFF3C
    s.reg8 AH = 0x0E ∧ s.reg8 AL = 0x41 ∧ s.reg8 BL &&& 0x0F = 0x0C := by decide

theorem witness_UnhandledInterrupts : (0x11 : Byte) ≠ 0x10 ∧ (w0.setReg EAX 0x0F00).reg8 AH ≠ 0x0E := by decide

theorem witness_InFromAnotherPort : ((w0.setReg EDX 0x3F9).reg EDX).extractLsb' 0 16 ≠ w0.cfg.consolePort := by decide

theorem witness_InFromTheConsole :
    let s : State := { w0.setReg EDX 0xABCD03F8 with consoleIn := [0x71] }
    (s.reg EDX).extractLsb' 0 16 = s.cfg.consolePort ∧ s.consoleIn = 0x71 :: [] := by decide

theorem witness_InFromTheConsoleWaits :
    ((w0.setReg EDX 0x3F8).reg EDX).extractLsb' 0 16 = (w0.setReg EDX 0x3F8).cfg.consolePort ∧
      (w0.setReg EDX 0x3F8).consoleIn = [] := by decide

theorem witness_OutWritesTheConsolePortOnly :
    ((w0.setReg EDX 0x3F8).reg EDX).extractLsb' 0 16 = w0.cfg.consolePort ∧
      ((w0.setReg EDX 0x3F9).reg EDX).extractLsb' 0 16 ≠ w0.cfg.consolePort := by decide

theorem witness_UnrecognizedOpcode : w0.runState = .running := by decide

/-- An image that fills memory to the bound, and the largest memory. -/
theorem witness_Boot_accepted :
    let c : Config := { Config.reference with memSize := 0x7c02 }
    1 ≤ c.memSize ∧ c.memSize ≤ 2 ^ 32 ∧ c.loadOffset.toNat + ([0x40, 0xF4] : List Byte).length ≤ c.memSize := by decide

/-- Each of the three ways a configuration is refused. -/
theorem witness_Boot_refused :
    ({ Config.reference with memSize := 0 } : Config).memSize < 1 ∧
      2 ^ 32 < ({ Config.reference with memSize := 0x100000001 } : Config).memSize ∧
      ({ Config.reference with memSize := 0x7c01 } : Config).memSize < Config.reference.loadOffset.toNat + ([0x40, 0xF4] : List Byte).length := by
  decide

end Sys2Proof.Tests
end

/-! The parameters of 00_scope.md R8: decoding and encoding under any opcode assignment, the parameters over a
step, the reset at their reference defaults. -/

section
namespace Sys2Proof

/-! ### Decoding what was encoded (R80 to R96) -/

/-- A list that begins with a byte the table recognizes is decoded by the format of its entry (R91). -/
theorem decode_cons_some {tab : OpcodeTable} {b : Byte} {o : Opcode} {tail : List Byte} (h : lookup tab b = some o) :
    decode tab (b :: tail) = decodeOperands tab (listCode8 (b :: tail)) (listCode32 (b :: tail)) b o := by
  have hb : listCode8 (b :: tail) 0 = .ok b := listCode8_append [] b tail 0 rfl
  rw [decode, decodeWith, bind_of_ok _ hb, h]

/-- A list that begins with a byte the table does not recognize is that unrecognized byte (R118). -/
theorem decode_cons_none {tab : OpcodeTable} {b : Byte} {tail : List Byte} (h : lookup tab b = none) :
    decode tab (b :: tail) = .ok (.unrecognized b) := by
  have hb : listCode8 (b :: tail) 0 = .ok b := listCode8_append [] b tail 0 rfl
  rw [decode, decodeWith, bind_of_ok _ hb, h]; rfl

section Groups

variable {tab : OpcodeTable} (ht : tab.legal = true)
include ht

/-- The first group is decoded by its sub-opcode once its descriptor is read (R181 to R184). -/
theorem decode_grp83 {m : ModRM} (hm : m.wf = true) (tail : List Byte) :
    decode tab ([tab.byte .grp83] ++ m.encode ++ tail) =
      decodeGrp83 tab (listCode8 ([tab.byte .grp83] ++ m.encode ++ tail)) m :=
  (decode_cons_some (lookup_byte ht _)).trans (bind_of_ok _ (parseModRM_encode _ m hm tail))

/-- The second group is decoded by its sub-opcode once its descriptor is read (R185, R186). -/
theorem decode_grpFF {m : ModRM} (hm : m.wf = true) (tail : List Byte) :
    decode tab ([tab.byte .grpFF] ++ m.encode ++ tail) = .ok (decodeGrpFF m) :=
  (decode_cons_some (lookup_byte ht _)).trans (bind_of_ok _ (parseModRM_encode _ m hm tail))

end Groups

/-- An 8-bit operand right after the opcode byte reads back. -/
theorem listCode8_after_opcode (op v : Byte) (rest : List Byte) : listCode8 (op :: v :: rest) 1 = .ok v :=
  listCode8_append [op] v rest 1 rfl

/-- A 32-bit operand right after the opcode byte reads back. -/
theorem listCode32_after_opcode (op : Byte) (v : Word) (rest : List Byte) :
    listCode32 (op :: (toLE v ++ rest)) 1 = .ok v :=
  listCode32_append [op] v rest 1 rfl

/-- Opcode byte and ModRM group of a well-formed descriptor take `1 + m.len` bytes (R81, R84). -/
theorem opcode_group_length (op : Byte) {m : ModRM} (hm : m.wf = true) : ([op] ++ m.encode).length = 1 + m.len := by
  rw [List.length_append, m.encode_length hm, List.length_singleton]

/-- An 8-bit immediate after the ModRM group reads back. -/
theorem listCode8_after_group (op : Byte) {m : ModRM} (hm : m.wf = true) (v : Byte) (rest : List Byte) :
    listCode8 ([op] ++ m.encode ++ ([v] ++ rest)) (1 + m.len) = .ok v :=
  listCode8_append _ v rest _ (opcode_group_length op hm)

/-- A 32-bit immediate after the ModRM group reads back. -/
theorem listCode32_after_group (op : Byte) {m : ModRM} (hm : m.wf = true) (v : Word) (rest : List Byte) :
    listCode32 ([op] ++ m.encode ++ (toLE v ++ rest)) (1 + m.len) = .ok v :=
  listCode32_append _ v rest _ (opcode_group_length op hm)

section Grp83

variable {ε : Type} {tab : OpcodeTable} {c8 : Nat → Except ε Byte} {m : ModRM} {v : Byte}

/-- The first group with the sub-opcode of ADD (R181). -/
theorem decodeGrp83_add (hr : m.reg = tab.addSub) (hv : c8 (1 + m.len) = .ok v) :
    decodeGrp83 tab c8 m = .ok (.addRm32Imm8 m v) := by
  rw [decodeGrp83, if_pos hr, bind_of_ok _ hv]; rfl

/-- The first group with the sub-opcode of SUB, which is not that of ADD (R182). -/
theorem decodeGrp83_sub (hr : m.reg = tab.subSub) (ha : tab.addSub ≠ tab.subSub) (hv : c8 (1 + m.len) = .ok v) :
    decodeGrp83 tab c8 m = .ok (.subRm32Imm8 m v) := by
  rw [decodeGrp83, if_neg (hr ▸ ha.symm), if_pos hr, bind_of_ok _ hv]; rfl

/-- The first group with the sub-opcode of CMP, which is neither that of ADD nor that of SUB (R183). -/
theorem decodeGrp83_cmp (hr : m.reg = tab.cmpSub) (ha : tab.addSub ≠ tab.cmpSub) (hs : tab.subSub ≠ tab.cmpSub)
    (hv : c8 (1 + m.len) = .ok v) : decodeGrp83 tab c8 m = .ok (.cmpRm32Imm8 m v) := by
  rw [decodeGrp83, if_neg (hr ▸ ha.symm), if_neg (hr ▸ hs.symm), if_pos hr, bind_of_ok _ hv]; rfl

/-- The first group with a sub-opcode that is not implemented (R184). -/
theorem decodeGrp83_unimplemented (hr : grp83Implemented tab m.reg = false) :
    decodeGrp83 tab c8 m = .ok (.grp83Unimplemented m) := by
  simp only [grp83Implemented, Bool.or_eq_false_iff, beq_eq_false_iff_ne] at hr
  obtain ⟨⟨ha, hs⟩, hc⟩ := hr
  rw [decodeGrp83, if_neg ha, if_neg hs, if_neg hc]

/-- What the first group decodes to: an instruction with an immediate after the descriptor, or the unimplemented row. -/
theorem decodeGrp83_cases {i : Instr} (h : decodeGrp83 tab c8 m = .ok i) :
    (∃ v, c8 (1 + m.len) = .ok v ∧ (i = .addRm32Imm8 m v ∨ i = .subRm32Imm8 m v ∨ i = .cmpRm32Imm8 m v)) ∨
      i = .grp83Unimplemented m := by
  unfold decodeGrp83 at h
  split_ifs at h
  · obtain ⟨v, hv, hi⟩ := bind_eq_ok.mp h; exact .inl ⟨v, hv, .inl (pure_eq_ok.mp hi).symm⟩
  · obtain ⟨v, hv, hi⟩ := bind_eq_ok.mp h; exact .inl ⟨v, hv, .inr (.inl (pure_eq_ok.mp hi).symm)⟩
  · obtain ⟨v, hv, hi⟩ := bind_eq_ok.mp h; exact .inl ⟨v, hv, .inr (.inr (pure_eq_ok.mp hi).symm)⟩
  · cases h; exact .inr rfl

end Grp83

/-- Under a legal table a well-formed instruction, encoded and followed by anything, decodes to itself: the opcode byte
is found as its own entry, and each field is read where the encoder laid it (R80 to R96). -/
theorem decode_encode {tab : OpcodeTable} (ht : tab.legal = true) {i : Instr} (hi : i.wf tab = true)
    (rest : List Byte) : decode tab (encode tab i ++ rest) = .ok i := by
  obtain ⟨hadd_sub, hadd_cmp, hsub_cmp⟩ := tab.sub_ne ht
  cases i with
  | ret | leave | inAlDx | outDxAl => exact (decode_cons_some (lookup_byte ht _)).trans rfl
  | pushImm8 v | cmpAlImm8 v | jmpRel8 v | joRel8 v | jnoRel8 v | jcRel8 v | jncRel8 v | jzRel8 v | jnzRel8 v | jsRel8 v
  | jnsRel8 v | jlRel8 v | jleRel8 v | intImm8 v =>
    exact (decode_cons_some (lookup_byte ht _)).trans (bind_of_ok _ (listCode8_after_opcode _ v rest))
  | pushImm32 v | cmpEaxImm32 v | jmpRel32 v | callRel32 v =>
    exact (decode_cons_some (lookup_byte ht _)).trans (bind_of_ok _ (listCode32_after_opcode _ v rest))
  | incR32 r =>
    obtain ⟨hl, hr⟩ := lookup_withReg ht .incR32 rfl r
    exact (decode_cons_some hl).trans (by rw [decodeOperands, hr])
  | pushR32 r =>
    obtain ⟨hl, hr⟩ := lookup_withReg ht .pushR32 rfl r
    exact (decode_cons_some hl).trans (by rw [decodeOperands, hr])
  | popR32 r =>
    obtain ⟨hl, hr⟩ := lookup_withReg ht .popR32 rfl r
    exact (decode_cons_some hl).trans (by rw [decodeOperands, hr])
  | movR32Imm32 r v =>
    obtain ⟨hl, hr⟩ := lookup_withReg ht .movR32Imm32 rfl r
    refine (decode_cons_some hl).trans ((bind_of_ok _ (listCode32_after_opcode _ v rest)).trans ?_)
    rw [hr]; rfl
  | movRm8R8 m | movRm32R32 m | movR8Rm8 m | movR32Rm32 m | addRm32R32 m | cmpR32Rm32 m =>
    exact (decode_cons_some (lookup_byte ht _)).trans (bind_of_ok _ (parseModRM_encode _ m hi rest))
  | movRm32Imm32 m v =>
    rw [encode, List.append_assoc]
    exact (decode_cons_some (lookup_byte ht _)).trans
      ((bind_of_ok _ (parseModRM_encode _ m hi _)).trans (bind_of_ok _ (listCode32_after_group _ hi v rest)))
  | addRm32Imm8 m v =>
    obtain ⟨hm, hr⟩ : m.wf = true ∧ m.reg = tab.addSub := by simpa [Instr.wf] using hi
    rw [encode, List.append_assoc, decode_grp83 ht hm]
    exact decodeGrp83_add hr (listCode8_after_group _ hm v rest)
  | subRm32Imm8 m v =>
    obtain ⟨hm, hr⟩ : m.wf = true ∧ m.reg = tab.subSub := by simpa [Instr.wf] using hi
    rw [encode, List.append_assoc, decode_grp83 ht hm]
    exact decodeGrp83_sub hr hadd_sub (listCode8_after_group _ hm v rest)
  | cmpRm32Imm8 m v =>
    obtain ⟨hm, hr⟩ : m.wf = true ∧ m.reg = tab.cmpSub := by simpa [Instr.wf] using hi
    rw [encode, List.append_assoc, decode_grp83 ht hm]
    exact decodeGrp83_cmp hr hadd_cmp hsub_cmp (listCode8_after_group _ hm v rest)
  | grp83Unimplemented m =>
    obtain ⟨hm, hr⟩ : m.wf = true ∧ grp83Implemented tab m.reg = false := by simpa [Instr.wf] using hi
    rw [encode, decode_grp83 ht hm, decodeGrp83_unimplemented hr]
  | incRm32 m =>
    obtain ⟨hm, hr⟩ : m.wf = true ∧ m.reg = 0 := by simpa [Instr.wf] using hi
    rw [encode, decode_grpFF ht hm, decodeGrpFF, if_pos hr]
  | grpFFUnimplemented m =>
    obtain ⟨hm, hr⟩ : m.wf = true ∧ m.reg ≠ 0 := by simpa [Instr.wf] using hi
    rw [encode, decode_grpFF ht hm, decodeGrpFF, if_neg hr]
  | unrecognized b => exact decode_cons_none (Option.isNone_iff_eq_none.mp hi)

/-- Settles O1: every field is read back where the encoder laid it, and a legal table finds every opcode byte as its own
entry. -/
theorem encodeThenDecodeIsIdentity : Obligations.EncodeThenDecodeIsIdentity :=
  fun _ _ rest ht hi => decode_encode ht hi rest

/-! ### Encoding what was decoded (R80 to R96)

Each field that is read extends the head of the list that is known already. -/

section EncodeDecode

variable {tab : OpcodeTable} {bs p : List Byte} {k : Nat} {op : Byte} {m : ModRM} {i : Instr}

/-- A byte read right after a known head of the list extends it. -/
theorem isPrefix_of_listCode8 {v : Byte} (hp : p <+: bs) (hk : p.length = k) (h : listCode8 bs k = .ok v) :
    p ++ [v] <+: bs := by
  obtain ⟨tail, rfl⟩ := hp
  cases tail with
  | nil => subst hk; simp [listCode8] at h
  | cons b tail =>
    rw [listCode8_append p b tail k hk] at h
    cases h
    exact ⟨tail, by simp⟩

/-- A word read right after a known head of the list extends it by its bytes, lowest first (R51). -/
theorem isPrefix_of_listCode32 {v : Word} (hp : p <+: bs) (hk : p.length = k) (h : listCode32 bs k = .ok v) :
    p ++ toLE v <+: bs := by
  obtain ⟨tail, rfl⟩ := hp
  rw [listCode32, ← hk, List.drop_left] at h
  split at h
  · cases h
    exact ⟨_, by rw [toLE_ofLE, List.append_assoc]; rfl⟩
  · cases h

/-- The SIB byte, where one is read, extends the known head of the list to offset 3 (R131). -/
theorem isPrefix_of_readSib {hasSib : Bool} {sib : Option Byte} (hp : p <+: bs) (hk : p.length = 2)
    (h : readSib (listCode8 bs) hasSib = .ok sib) :
    p ++ sib.toList <+: bs ∧ (p ++ sib.toList).length = if hasSib then 3 else 2 := by
  cases hasSib with
  | false => cases h; simpa using ⟨hp, hk⟩
  | true =>
    obtain ⟨b, hb, hs⟩ := bind_eq_ok.mp h
    cases hs
    exact ⟨isPrefix_of_listCode8 hp hk hb, by simp [hk]⟩

/-- The displacement, where one is read, extends the known head of the list by its field (R131). -/
theorem isPrefix_of_readDisp {mod : BitVec 2} {rm : RegNum} {disp : Word} (hp : p <+: bs) (hk : p.length = k)
    (h : readDisp (listCode8 bs) (listCode32 bs) (dispSize mod rm) k = .ok disp) :
    p ++ encodeDisp (dispSize mod rm) disp <+: bs := by
  rcases dispSize_cases mod rm with hd | hd | hd <;> rw [hd] at h ⊢
  · simpa [encodeDisp] using hp
  · obtain ⟨b, hb, hs⟩ := bind_eq_ok.mp h
    cases hs
    rw [encodeDisp, sext32_setWidth]
    exact isPrefix_of_listCode8 hp hk hb
  · exact isPrefix_of_listCode32 hp hk h

/-- A descriptor that is parsed after the opcode byte stands there as its encoded group (R131). -/
theorem isPrefix_of_parseModRM (hp : [op] <+: bs) (h : parseModRM (listCode8 bs) (listCode32 bs) = .ok m) :
    [op] ++ m.encode <+: bs := by
  unfold parseModRM at h
  simp only [bind_eq_ok, pure_eq_ok] at h
  obtain ⟨b, hb, sib, hs, disp, hd, rfl⟩ := h
  obtain ⟨hsib, hlen⟩ := isPrefix_of_readSib (isPrefix_of_listCode8 hp rfl hb) rfl hs
  have hdisp := isPrefix_of_readDisp hsib hlen hd
  simpa only [ModRM.encode, ModRM.byte, modRM_byte_eq, List.append_assoc] using hdisp

/-- A byte that the table recognizes as an entry with a fixed byte is that byte. -/
theorem eq_byte_of_lookup {b : Byte} {o : Opcode} (h : lookup tab b = some o) (ho : o.mask = 0xFF) : b = tab.byte o := by
  have hb := eq_of_lookup h
  rwa [if_neg (by rw [ho]; decide)] at hb

/-- A byte that the table recognizes as a register-in-opcode family is base plus register number (R82). -/
theorem eq_withReg_of_lookup {b : Byte} {o : Opcode} (h : lookup tab b = some o) (ho : o.mask = 0xF8) :
    b = tab.withReg o (opcodeReg b) := by
  have hb := eq_of_lookup h
  rwa [if_pos ho] at hb

/-- What the first group decodes to is encoded by the group's byte, the descriptor and the immediate read, if any: for
the unimplemented row none (log 15). -/
theorem encode_isPrefix_of_decodeGrp83 (hm : m.wf = true) (hp : [tab.byte .grp83] ++ m.encode <+: bs)
    (h : decodeGrp83 tab (listCode8 bs) m = .ok i) : encode tab i <+: bs := by
  rcases decodeGrp83_cases h with ⟨v, hv, hi⟩ | rfl
  · have himm := isPrefix_of_listCode8 hp (opcode_group_length _ hm) hv
    rcases hi with rfl | rfl | rfl <;> exact himm
  · exact hp

/-- What the second group decodes to is encoded by the group's byte and the descriptor. -/
theorem encode_decodeGrpFF (m : ModRM) : encode tab (decodeGrpFF m) = [tab.byte .grpFF] ++ m.encode := by
  unfold decodeGrpFF; split <;> rfl

/-- The operands read for an entry, encoded after the entry's byte, are the head of the list. -/
theorem encode_isPrefix_of_decodeOperands {b : Byte} {o : Opcode} (hp : [b] <+: bs) (hl : lookup tab b = some o)
    (h : decodeOperands tab (listCode8 bs) (listCode32 bs) b o = .ok i) : encode tab i <+: bs := by
  have fixed (ho : o.mask = 0xFF) : [tab.byte o] <+: bs := eq_byte_of_lookup hl ho ▸ hp
  have family (ho : o.mask = 0xF8) : [tab.withReg o (opcodeReg b)] <+: bs := eq_withReg_of_lookup hl ho ▸ hp
  cases o <;> simp only [decodeOperands, bind_eq_ok, pure_eq_ok] at h
  case ret | leave | inAlDx | outDxAl => cases h; exact fixed rfl
  case incR32 | pushR32 | popR32 => cases h; exact family rfl
  case pushImm8 | cmpAlImm8 | jmpRel8 | joRel8 | jnoRel8 | jcRel8 | jncRel8 | jzRel8 | jnzRel8 | jsRel8 | jnsRel8 | jlRel8
      | jleRel8 | intImm8 =>
    obtain ⟨v, hv, rfl⟩ := h
    exact isPrefix_of_listCode8 (fixed rfl) rfl hv
  case pushImm32 | cmpEaxImm32 | jmpRel32 | callRel32 =>
    obtain ⟨v, hv, rfl⟩ := h
    exact isPrefix_of_listCode32 (fixed rfl) rfl hv
  case movR32Imm32 =>
    obtain ⟨v, hv, rfl⟩ := h
    exact isPrefix_of_listCode32 (family rfl) rfl hv
  case movRm8R8 | movRm32R32 | movR8Rm8 | movR32Rm32 | addRm32R32 | cmpR32Rm32 =>
    obtain ⟨m, hm, rfl⟩ := h
    exact isPrefix_of_parseModRM (fixed rfl) hm
  case movRm32Imm32 =>
    obtain ⟨m, hm, v, hv, rfl⟩ := h
    exact isPrefix_of_listCode32 (isPrefix_of_parseModRM (fixed rfl) hm) (opcode_group_length _ (parseModRM_wf hm)) hv
  case grp83 =>
    obtain ⟨m, hm, h⟩ := h
    exact encode_isPrefix_of_decodeGrp83 (parseModRM_wf hm) (isPrefix_of_parseModRM (fixed rfl) hm) h
  case grpFF =>
    obtain ⟨m, hm, rfl⟩ := h
    rw [encode_decodeGrpFF]
    exact isPrefix_of_parseModRM (fixed rfl) hm

/-- The encoding of what is decoded is the head of the list it was decoded from. -/
theorem encode_isPrefix_of_decode (h : decode tab bs = .ok i) : encode tab i <+: bs := by
  obtain ⟨b, hb, h⟩ := bind_eq_ok.mp h
  have hp : [b] <+: bs := isPrefix_of_listCode8 List.nil_prefix rfl hb
  cases hl : lookup tab b with
  | none => simp only [hl, pure_eq_ok] at h; subst h; exact hp
  | some o => simp only [hl] at h; exact encode_isPrefix_of_decodeOperands hp hl h

end EncodeDecode

open Laws.EncodedLength in
/-- The encoding of a well-formed instruction has as many bytes as the decoder consumes, 1 to 11, for every constructor
(R80, R81). -/
theorem encodedLength : ∀ i : Instr, Statement i
  | .movR32Imm32 r imm => movR32Imm32 r imm
  | .movRm32Imm32 m imm => movRm32Imm32 m imm
  | .movRm8R8 m => movRm8R8 m
  | .movRm32R32 m => movRm32R32 m
  | .movR8Rm8 m => movR8Rm8 m
  | .movR32Rm32 m => movR32Rm32 m
  | .addRm32R32 m => addRm32R32 m
  | .addRm32Imm8 m imm => addRm32Imm8 m imm
  | .subRm32Imm8 m imm => subRm32Imm8 m imm
  | .cmpRm32Imm8 m imm => cmpRm32Imm8 m imm
  | .incRm32 m => incRm32 m
  | .incR32 r => incR32 r
  | .pushR32 r => pushR32 r
  | .popR32 r => popR32 r
  | .pushImm32 imm => pushImm32 imm
  | .pushImm8 imm => pushImm8 imm
  | .cmpR32Rm32 m => cmpR32Rm32 m
  | .cmpAlImm8 imm => cmpAlImm8 imm
  | .cmpEaxImm32 imm => cmpEaxImm32 imm
  | .jmpRel8 d => jmpRel8 d
  | .jmpRel32 d => jmpRel32 d
  | .joRel8 d => joRel8 d
  | .jnoRel8 d => jnoRel8 d
  | .jcRel8 d => jcRel8 d
  | .jncRel8 d => jncRel8 d
  | .jzRel8 d => jzRel8 d
  | .jnzRel8 d => jnzRel8 d
  | .jsRel8 d => jsRel8 d
  | .jnsRel8 d => jnsRel8 d
  | .jlRel8 d => jlRel8 d
  | .jleRel8 d => jleRel8 d
  | .callRel32 d => callRel32 d
  | .ret => ret
  | .leave => leave
  | .intImm8 v => intImm8 v
  | .inAlDx => inAlDx
  | .outDxAl => outDxAl
  | .grp83Unimplemented m => grp83Unimplemented m
  | .grpFFUnimplemented m => grpFFUnimplemented m
  | .unrecognized b => unrecognized b

/-- Settles O2: each field that is read extends the known head of the list by the bytes that encode it. -/
theorem decodeThenEncodeIsIdentity : Obligations.DecodeThenEncodeIsIdentity := by
  intro tab bs i h
  have hwf : i.wf tab = true := decodeWith_wf h
  have hhead := encode_isPrefix_of_decode h
  obtain ⟨hlen, -, -⟩ := encodedLength i tab hwf
  exact ⟨hwf, hlen ▸ hhead.length_le, hlen ▸ List.prefix_iff_eq_take.mp hhead⟩

end Sys2Proof

/-! ### The parameters over a step, and at reset (R8) -/

namespace Sys2Proof.Machine

/-- Whatever an instruction does, the parameters stay. -/
theorem Outcome.cfg_eq {wf : Bool} {s t : State} (h : Outcome wf s t) : t.cfg = s.cfg := by
  rcases h with ⟨c, rfl, -⟩ | ⟨⟨hcfg, -⟩, -⟩
  · exact s.raiseFatal_cfg c
  · exact hcfg

/-- Settles O15: a step stops the machine or executes an instruction, and neither writes a parameter. -/
theorem parametersNeverChange : Obligations.ParametersNeverChange := by
  intro s t h
  rcases step_cases h with ⟨-, rfl⟩ | ⟨-, -, rfl⟩ | ⟨-, -, -, rfl⟩ | ⟨-, -, -, ⟨c, -, rfl⟩ | ⟨i, -, hi⟩⟩
  · rfl
  · exact s.halt_cfg _
  · exact s.halt_cfg _
  · exact s.raiseFatal_cfg c
  · exact (exec_cases hi).cfg_eq

/-- With no image, reset leaves the state right after reset. -/
theorem boot_nil {c : Config} (h : bootable c [] = true) : boot c [] = .next (State.resetWith c) := by
  rw [boot, if_pos h]; rfl

/-- Settles O60: the reference configuration boots, and `State.reset` is `State.resetWith` of it. -/
theorem resetHoldsTheReferenceDefaults : Obligations.ResetHoldsTheReferenceDefaults :=
  ⟨boot_nil (by decide), rfl, rfl, State.reg_resetWith Config.reference, fun _ => rfl, rfl, rfl, rfl, rfl, rfl⟩

end Sys2Proof.Machine
end

/-! The state of 10_state.md: the invariant every step keeps and its base case, the writers and readers of the flags,
the byte views, the stopped machine. -/

section
namespace Sys2Proof.Machine

open Sys2Proof.Safety

/-! ### The invariant of the machine (R31 to R35, R251) -/

/-- What `StatusOk` asks of a running state (R33 to R35). -/
theorem statusOk_of_running {s : State} (h : s.runState = .running) :
    StatusOk s ↔ s.haltCause = .none ∧ s.fatal = none := by rw [StatusOk, h]

/-- A completed instruction keeps the invariant: what it writes lies below the bound, and the status fields stay. -/
theorem Within.inv {s t : State} (h : Within s t) (hr : s.runState = .running) (hs : Inv s) : Inv t := by
  obtain ⟨hwf, hbelow, hstatus⟩ := hs
  obtain ⟨⟨hcfg, hrun, hhalt, hfatal⟩, -, hmem⟩ := h
  have hstatus' : StatusOk t := by
    rw [statusOk_of_running (hrun.trans hr), hhalt, hfatal]
    exact (statusOk_of_running hr).mp hstatus
  rcases hmem with hmem | ⟨a, bs, hin, hmem⟩
  · exact ⟨hmem ▸ hwf, by rw [hmem, hcfg]; exact hbelow, hstatus'⟩
  · exact ⟨hmem ▸ Memory.wf_writeBytes hwf a bs, by rw [hmem, hcfg]; exact Memory.below_writeBytes hbelow hin, hstatus'⟩

/-- A fatal stop of a running state for a legal cause keeps the invariant (R252). -/
theorem State.raiseFatal_inv {s : State} {c : FatalCause} (hr : s.runState = .running) (hs : Inv s)
    (hc : fatalLegal s.cfg c = true) : Inv (s.raiseFatal c) := by
  obtain ⟨hwf, hbelow, hstatus⟩ := hs
  exact ⟨hwf, hbelow, ((statusOk_of_running hr).mp hstatus).1, c, rfl, hc⟩

/-- A halt of a running state keeps the invariant where the pc bears out its cause (R34, R116). -/
theorem State.halt_inv {s : State} {c : HaltCause} (hr : s.runState = .running) (hs : Inv s)
    (hc : (c = .pcZero ∧ s.pc = 0) ∨ (c = .pcBound ∧ s.cfg.memSize ≤ s.pc.toNat)) : Inv (s.halt c) := by
  obtain ⟨hwf, hbelow, hstatus⟩ := hs
  exact ⟨hwf, hbelow, ((statusOk_of_running hr).mp hstatus).2, hc⟩

/-- A well-formed instruction of a running state keeps the invariant. -/
theorem Outcome.inv {s t : State} (h : Outcome true s t) (hr : s.runState = .running) (hs : Inv s) : Inv t := by
  rcases h with ⟨c, rfl, hc⟩ | h
  · exact s.raiseFatal_inv hr hs (hc rfl)
  · exact h.inv hr hs

/-- Settles O13: by the cases of a step, a fetched instruction being well-formed. -/
theorem everyStepKeepsTheMachineInvariant : Obligations.EveryStepKeepsTheMachineInvariant := by
  intro s t hs h
  rcases step_cases h with ⟨-, rfl⟩ | ⟨hr, hpc, rfl⟩ | ⟨hr, -, hpc, rfl⟩ | ⟨hr, -, -, ⟨c, hf, rfl⟩ | ⟨i, hf, hi⟩⟩
  · exact hs
  · exact s.halt_inv hr hs (.inl ⟨rfl, hpc⟩)
  · exact s.halt_inv hr hs (.inr ⟨rfl, hpc⟩)
  · exact s.raiseFatal_inv hr hs (State.fetch_error_legal hf)
  · have hout := exec_cases hi
    rw [State.fetch_wf hf] at hout
    exact hout.inv hr hs

/-- Settles O14: reset lists no byte of memory, and it runs with neither cause. -/
theorem resetMeetsTheMachineInvariant : Obligations.ResetMeetsTheMachineInvariant :=
  ⟨Memory.wf_nil, fun _ hc => absurd hc List.not_mem_nil, rfl, rfl⟩

/-! ### Replacing the flags before an operation (R29) -/

/-- The rule does not read the flags and leaves them: it gives the same result from any flags, with those flags in it. -/
def FlagsCarried (r : State → Except FatalCause State) : Prop := ∀ s f, r (s.setFlags f) = (r s).map (·.setFlags f)

/-- The rule does not read the flags and writes all four by `SubFlags` where it completes (R150). -/
def FlagsSet (r : State → Except FatalCause State) : Prop :=
  (∀ s f, r (s.setFlags f) = r s) ∧ ∀ s t, r s = .ok t → ∃ a b, t.flags = subFlags a b

theorem State.setReg8_setFlags (s : State) (f : Flags) (j : RegNum) (v : Byte) :
    (s.setFlags f).setReg8 j v = (s.setReg8 j v).setFlags f := by
  unfold State.setReg8; split <;> rfl

theorem State.pollInput_setFlags (s : State) (f : Flags) : (s.setFlags f).pollInput = s.pollInput.setFlags f := by
  rw [s.pollInput_frame, (s.setFlags f).pollInput_frame]
  unfold State.pollInput
  rw [State.setFlags_consoleIn]
  split <;> rfl

theorem State.portIn_setFlags (s : State) (f : Flags) (p : BitVec 16) :
    (s.setFlags f).portIn p = ((s.portIn p).1, (s.portIn p).2.setFlags f) := by
  have hn : (s.setFlags f).nextInput = s.nextInput := rfl
  unfold State.portIn
  rw [State.pollInput_setFlags, hn, State.setFlags_cfg]
  split
  · split <;> rfl
  · rfl

theorem State.portOut_setFlags (s : State) (f : Flags) (p : BitVec 16) (v : Byte) :
    (s.setFlags f).portOut p v = (s.portOut p v).setFlags f := by
  unfold State.portOut
  rw [State.setFlags_cfg]
  split <;> rfl

theorem State.memWrite32_setFlags (s : State) (f : Flags) (a v : Word) :
    (s.setFlags f).memWrite32 a v = (s.memWrite32 a v).map (·.setFlags f) := by
  have hr : (s.setFlags f).inRange a 4 = s.inRange a 4 := rfl
  unfold State.memWrite32
  rw [hr]
  split <;> rfl

theorem State.memWrite8_setFlags (s : State) (f : Flags) (a : Word) (v : Byte) :
    (s.setFlags f).memWrite8 a v = (s.memWrite8 a v).map (·.setFlags f) := by
  have hr : (s.setFlags f).inRange a 1 = s.inRange a 1 := rfl
  unfold State.memWrite8
  rw [hr]
  split <;> rfl

/-! #### Rules built from a read, a write and a change of the state -/

/-- A rule that raises nothing and carries the flags through its change of the state. -/
theorem FlagsCarried.ok {g : State → State} (hg : ∀ s f, g (s.setFlags f) = (g s).setFlags f) :
    FlagsCarried fun s => .ok (g s) := fun s f => congrArg Except.ok (hg s f)

/-- A rule that raises a fatal condition, whatever the flags. -/
theorem FlagsCarried.error {c : State → FatalCause} (hc : ∀ s f, c (s.setFlags f) = c s) :
    FlagsCarried fun s => .error (c s) := fun s f => congrArg Except.error (hc s f)

/-- A rule that first reads something other than the flags. -/
theorem FlagsCarried.read_bind {α : Type} {x : State → Except FatalCause α} {k : α → State → Except FatalCause State}
    (hx : ∀ s f, x (s.setFlags f) = x s) (hk : ∀ a, FlagsCarried (k a)) :
    FlagsCarried fun s => x s >>= fun a => k a s := by
  intro s f
  simp only [hx]
  cases x s with
  | error c => rfl
  | ok a => exact hk a s f

/-- A rule followed by a change of the state it produced, which may also look at the state it began in. -/
theorem FlagsCarried.bind_pure {x : State → Except FatalCause State} {g : State → State → State} (hx : FlagsCarried x)
    (hg : ∀ s u f, g (s.setFlags f) (u.setFlags f) = (g s u).setFlags f) :
    FlagsCarried fun s => x s >>= fun u => pure (g s u) := by
  intro s f
  simp only [hx s f]
  cases x s with
  | error c => rfl
  | ok u => exact congrArg Except.ok (hg s u f)

theorem flagsCarried_writeRM32 (m : ModRM) {v : State → Word} (hv : ∀ s f, v (s.setFlags f) = v s) :
    FlagsCarried fun s => s.writeRM32 m (v s) := by
  intro s f
  have ha : (s.setFlags f).effAddr m = s.effAddr m := rfl
  simp only [State.writeRM32, hv, ha]
  split
  · rfl
  · cases s.effAddr m with
    | error c => rfl
    | ok a => exact s.memWrite32_setFlags f a (v s)

theorem flagsCarried_writeRM8 (m : ModRM) {v : State → Byte} (hv : ∀ s f, v (s.setFlags f) = v s) :
    FlagsCarried fun s => s.writeRM8 m (v s) := by
  intro s f
  have ha : (s.setFlags f).effAddr m = s.effAddr m := rfl
  simp only [State.writeRM8, hv, ha, State.setReg8_setFlags]
  split
  · rfl
  · cases s.effAddr m with
    | error c => rfl
    | ok a => exact s.memWrite8_setFlags f a (v s)

theorem flagsCarried_push32 {v : State → Word} (hv : ∀ s f, v (s.setFlags f) = v s) :
    FlagsCarried fun s => s.push32 (v s) :=
  FlagsCarried.bind_pure (x := fun s => s.memWrite32 (s.reg ESP - 4) (v s)) (g := fun s u => u.setReg ESP (s.reg ESP - 4))
    (fun s f => by simp only [hv, State.reg_setFlags, State.memWrite32_setFlags]) fun _ _ _ => rfl

/-- A rule that pops a word and goes on with it (R201) is a read followed by the rest. -/
theorem flagsCarried_pop32 (start : State → State) (g : Word → State → State)
    (hs : ∀ s f, start (s.setFlags f) = (start s).setFlags f) (hg : ∀ v u f, g v (u.setFlags f) = (g v u).setFlags f) :
    FlagsCarried fun s => (start s).pop32 >>= fun vt => pure (g vt.1 vt.2) := by
  intro s f
  have hread : ((start s).setFlags f).memRead32 (((start s).setFlags f).reg ESP) .read =
      (start s).memRead32 ((start s).reg ESP) .read := rfl
  simp only [State.pop32, hs, hread]
  cases (start s).memRead32 ((start s).reg ESP) .read with
  | error c => rfl
  | ok v => exact congrArg Except.ok (hg v ((start s).setReg ESP ((start s).reg ESP + 4)) f)

/-- A rule that raises nothing and overwrites the flags. -/
theorem FlagsSet.ok {g : State → State} {a b : State → Word} (hg : ∀ s f, g (s.setFlags f) = g s)
    (hflags : ∀ s, (g s).flags = subFlags (a s) (b s)) : FlagsSet fun s => .ok (g s) :=
  ⟨fun s f => congrArg Except.ok (hg s f), fun s t ht => by cases ht; exact ⟨_, _, hflags s⟩⟩

/-- A rule that sets the flags, after a read of something other than them. -/
theorem FlagsSet.read_bind {α : Type} {x : State → Except FatalCause α} {k : α → State → Except FatalCause State}
    (hx : ∀ s f, x (s.setFlags f) = x s) (hk : ∀ a, FlagsSet (k a)) : FlagsSet fun s => x s >>= fun a => k a s := by
  refine ⟨fun s f => ?_, fun s t ht => ?_⟩
  · simp only [hx, (hk _).1]
  · obtain ⟨a, -, ht⟩ := bind_eq_ok.mp ht
    exact (hk a).2 s t ht

/-- A rule that carries the flags, followed by a change that overwrites them. -/
theorem FlagsCarried.bind_set {x : State → Except FatalCause State} {g : State → State} {a b : Word} (hx : FlagsCarried x)
    (hg : ∀ u f, g (u.setFlags f) = g u) (hflags : ∀ u, (g u).flags = subFlags a b) :
    FlagsSet fun s => x s >>= fun u => pure (g u) := by
  refine ⟨fun s f => ?_, fun s t ht => ?_⟩
  · simp only [hx s f]
    cases x s with
    | error c => rfl
    | ok u => exact congrArg Except.ok (hg u f)
  · simp only [bind_eq_ok, pure_eq_ok] at ht
    obtain ⟨u, -, rfl⟩ := ht
    exact ⟨a, b, hflags u⟩

/-! #### Every instruction carries the flags, sets them, or is a conditional jump -/

/-- SUB r/m32, imm8 and the four CMP forms: the writers of R29. -/
def FlagWriter (i : Instr) : Prop :=
  (∃ m k, i = .subRm32Imm8 m k) ∨ (∃ m k, i = .cmpRm32Imm8 m k) ∨ (∃ m, i = .cmpR32Rm32 m) ∨
    (∃ k, i = .cmpAlImm8 k) ∨ ∃ k, i = .cmpEaxImm32 k

/-- The ten conditional jumps (R213 to R222): the readers of R29. -/
def ConditionalJump (i : Instr) : Prop :=
  ∃ d, i = .joRel8 d ∨ i = .jnoRel8 d ∨ i = .jcRel8 d ∨ i = .jncRel8 d ∨ i = .jzRel8 d ∨ i = .jnzRel8 d ∨
    i = .jsRel8 d ∨ i = .jnsRel8 d ∨ i = .jlRel8 d ∨ i = .jleRel8 d

/-- What an instruction can have to do with the flags: its rule carries them, or it is a writer and its rule sets them, or
it is a conditional jump. -/
inductive FlagUse (i : Instr) : Prop
  | carries {r : State → Except FatalCause State} (hi : ∀ s, exec i s = complete s (r s)) (hr : FlagsCarried r)
  | sets {r : State → Except FatalCause State} (hi : ∀ s, exec i s = complete s (r s)) (hr : FlagsSet r)
      (hw : FlagWriter i)
  | tests {c : Cond} {d : Byte} (hi : ∀ s, exec i s = jumpIf c d s) (hj : ConditionalJump i)

/-- A rule that reads the r/m operand, writes it back, and moves the pc. -/
theorem flagsCarried_update (m : ModRM) {g : Word → State → Word} (hg : ∀ a s f, g a (s.setFlags f) = g a s) (n : Nat) :
    FlagsCarried fun s => s.readRM32 m >>= fun a => s.writeRM32 m (g a s) >>= fun u => pure (u.advance n) :=
  .read_bind (fun _ _ => rfl) fun a => (flagsCarried_writeRM32 m (hg a)).bind_pure fun _ _ _ => rfl

/-- INT advances and adds an event that it takes from the registers (R230). -/
theorem flagUse_intImm8 (v : Byte) : FlagUse (.intImm8 v) := by
  refine .carries (fun _ => rfl) (.ok fun s f => ?_)
  have hAH : ((s.setFlags f).advance 2).reg8 AH = (s.advance 2).reg8 AH := rfl
  rw [hAH]
  split
  · split <;> rfl
  · rfl

/-- IN takes a byte from the port into AL, or holds (R235). -/
theorem flagUse_inAlDx : FlagUse .inAlDx := by
  refine .carries (fun _ => rfl) (.ok fun s f => ?_)
  have hp : (s.setFlags f).portNumber = s.portNumber := rfl
  rw [hp, State.portIn_setFlags]
  rcases s.portIn s.portNumber with ⟨_ | b, t⟩
  · rfl
  · simp only [State.setReg8_setFlags]; rfl

/-- Over all instructions: each case names the reads, writes and changes its rule is built from. -/
theorem exec_flagUse (i : Instr) : FlagUse i := by
  cases i with
  | movR32Imm32 | incR32 | jmpRel8 | jmpRel32 | unrecognized =>
    exact .carries (fun _ => rfl) (.ok fun _ _ => rfl)
  | grp83Unimplemented | grpFFUnimplemented => exact .carries (fun _ => rfl) (.error fun _ _ => rfl)
  | movRm32Imm32 m | movRm32R32 m =>
    exact .carries (fun _ => rfl) ((flagsCarried_writeRM32 m fun _ _ => rfl).bind_pure fun _ _ _ => rfl)
  | movRm8R8 m =>
    exact .carries (fun _ => rfl) ((flagsCarried_writeRM8 m fun _ _ => rfl).bind_pure fun _ _ _ => rfl)
  | movR8Rm8 =>
    exact .carries (fun _ => rfl)
      (.read_bind (fun _ _ => rfl) fun v => .ok fun s f => congrArg (State.advance · _) (s.setReg8_setFlags f _ v))
  | movR32Rm32 =>
    exact .carries (fun _ => rfl) (.read_bind (fun _ _ => rfl) fun v => .ok fun _ _ => rfl)
  | addRm32R32 m | addRm32Imm8 m | incRm32 m =>
    exact .carries (fun _ => rfl) (flagsCarried_update m (fun _ _ _ => rfl) _)
  | pushR32 | pushImm32 | pushImm8 | callRel32 =>
    exact .carries (fun _ => rfl) ((flagsCarried_push32 fun _ _ => rfl).bind_pure fun _ _ _ => rfl)
  | popR32 r =>
    exact .carries (fun _ => rfl)
      (flagsCarried_pop32 id (fun v t => (t.setReg r v).advance 1) (fun _ _ => rfl) fun _ _ _ => rfl)
  | ret =>
    exact .carries (fun _ => rfl) (flagsCarried_pop32 id (fun v t => t.setPc v) (fun _ _ => rfl) fun _ _ _ => rfl)
  | leave =>
    exact .carries (fun _ => rfl)
      (flagsCarried_pop32 (fun s => s.setReg ESP (s.reg EBP)) (fun v t => (t.setReg EBP v).advance 1) (fun _ _ => rfl)
        fun _ _ _ => rfl)
  | intImm8 v => exact flagUse_intImm8 v
  | inAlDx => exact flagUse_inAlDx
  | outDxAl => exact .carries (fun _ => rfl) (.ok fun s f => congrArg (State.advance · 1) (s.portOut_setFlags f _ _))
  | subRm32Imm8 m k =>
    exact .sets (fun _ => rfl)
      (.read_bind (fun _ _ => rfl) fun a => (flagsCarried_writeRM32 m fun _ _ => rfl).bind_set (fun _ _ => rfl) fun _ => rfl)
      (.inl ⟨m, k, rfl⟩)
  | cmpRm32Imm8 m k =>
    exact .sets (fun _ => rfl) (.read_bind (fun _ _ => rfl) fun _ => .ok (fun _ _ => rfl) fun _ => rfl)
      (.inr (.inl ⟨m, k, rfl⟩))
  | cmpR32Rm32 m =>
    exact .sets (fun _ => rfl) (.read_bind (fun _ _ => rfl) fun _ => .ok (fun _ _ => rfl) fun _ => rfl)
      (.inr (.inr (.inl ⟨m, rfl⟩)))
  | cmpAlImm8 k =>
    exact .sets (fun _ => rfl) (.ok (fun _ _ => rfl) fun _ => rfl) (.inr (.inr (.inr (.inl ⟨k, rfl⟩))))
  | cmpEaxImm32 k =>
    exact .sets (fun _ => rfl) (.ok (fun _ _ => rfl) fun _ => rfl) (.inr (.inr (.inr (.inr ⟨k, rfl⟩))))
  | joRel8 d | jnoRel8 d | jcRel8 d | jncRel8 d | jzRel8 d | jnzRel8 d | jsRel8 d | jnsRel8 d | jlRel8 d | jleRel8 d =>
    exact .tests (fun _ => rfl) ⟨d, by simp⟩

/-- A rule that carries the flags answers, from any others, the same state with those in it. -/
theorem FlagsCarried.next {r : State → Except FatalCause State} (hr : FlagsCarried r) {s t : State}
    (h : complete s (r s) = .next t) (f : Flags) :
    complete (s.setFlags f) (r (s.setFlags f)) = .next (t.setFlags f) := by
  rw [hr s f]
  rcases complete_next.mp h with hok | ⟨c, herr, rfl⟩
  · rw [hok]; rfl
  · rw [herr]; rfl

/-- Started with the flags it has, a rule that carries the flags answers what it answers: they are in it. -/
theorem FlagsCarried.flags_eq {r : State → Except FatalCause State} (hr : FlagsCarried r) {s t : State}
    (h : complete s (r s) = .next t) : t.flags = s.flags := by
  have h' : complete s (r s) = .next (t.setFlags s.flags) := hr.next h s.flags
  rw [h, Host.Outcome.next.injEq] at h'
  exact (congrArg State.flags h').trans (t.setFlags_flags s.flags)

/-- A rule that sets the flags answers the same state from any, or the same fatal stop with them. -/
theorem FlagsSet.next {r : State → Except FatalCause State} (hr : FlagsSet r) {s t : State}
    (h : complete s (r s) = .next t) (f : Flags) :
    complete (s.setFlags f) (r (s.setFlags f)) = .next t ∨
      complete (s.setFlags f) (r (s.setFlags f)) = .next (t.setFlags f) := by
  rw [hr.1 s f]
  rcases complete_next.mp h with hok | ⟨c, herr, rfl⟩
  · rw [hok]; exact .inl rfl
  · rw [herr]; exact .inr rfl

/-- A rule that sets the flags leaves them where it raises a fatal condition. -/
theorem FlagsSet.flags_eq {r : State → Except FatalCause State} (hr : FlagsSet r) {s t : State}
    (h : complete s (r s) = .next t) : t.flags = s.flags ∨ ∃ a b, t.flags = subFlags a b := by
  rcases complete_next.mp h with hok | ⟨c, -, rfl⟩
  · exact .inr (hr.2 s t hok)
  · exact .inl (s.raiseFatal_flags c)

/-- A conditional jump leaves the flags. -/
theorem jumpIf_flags {c : Cond} {d : Byte} {s t : State} (h : jumpIf c d s = .next t) : t.flags = s.flags := by
  unfold jumpIf at h
  rw [complete_ok, Host.Outcome.next.injEq] at h
  rw [← h]
  split <;> rfl

/-- Settles O17: every instruction carries the flags, is a listed writer, or is a conditional jump. -/
theorem flagsHaveTheListedWritersAndReaders : Obligations.FlagsHaveTheListedWritersAndReaders := by
  refine ⟨fun i s t h hne => ?_, fun i s t f h => ?_⟩
  · cases exec_flagUse i with
    | carries hi hr => exact absurd (hr.flags_eq (hi s ▸ h)) hne
    | sets hi hr hw => exact ⟨(hr.flags_eq (hi s ▸ h)).resolve_left hne, hw⟩
    | tests hi => exact absurd (jumpIf_flags (hi s ▸ h)) hne
  · cases exec_flagUse i with
    | carries hi hr => rw [hi]; exact .inr (.inl (hr.next (hi s ▸ h) f))
    | sets hi hr => rw [hi, ← or_assoc]; exact .inl (hr.next (hi s ▸ h) f)
    | tests _ hj => exact .inr (.inr hj)

/-! ### Byte views (R23) -/

/-- The first four registers own the byte views. -/
theorem viewOwner_le (j : RegNum) : (viewOwner j).toNat ≤ 3 := by
  revert j; decide

/-- A byte view reads what its eight bits hold. -/
theorem reg8_of_onlyReg8 {s t : State} {j : RegNum} {v : Byte} (h : OnlyReg8 j v s t) : t.reg8 j = v := by
  refine BitVec.eq_of_getLsbD_eq fun i hi => ?_
  rw [State.reg8_getLsbD t j i hi, h, if_pos ⟨rfl, by omega, by omega⟩, Nat.add_sub_cancel_left]

/-- Writing a byte view changes the register file alone. -/
theorem State.setReg8_eq_withRegs (s : State) (j : RegNum) (v : Byte) :
    s.setReg8 j v = { s with regs := (s.setReg8 j v).regs } := by
  unfold State.setReg8; split <;> rfl

/-- Settles O24: a view is eight bits of its owner, a write changes just those, and so they read back. -/
theorem byteViewsAliasTheirRegister : Obligations.ByteViewsAliasTheirRegister := by
  intro s j v
  have hwrite : OnlyReg8 j v s (s.setReg8 j v) := onlyReg8_of_regs rfl
  exact ⟨s.reg8_getLsbD j, viewOwner_le j, hwrite, reg8_of_onlyReg8 hwrite, s.setReg8_eq_withRegs j v⟩

/-! ### The stopped machine (R33) -/

/-- Settles O8: the run state is tested before anything else. -/
theorem stoppedStatesAreAbsorbing : Obligations.StoppedStatesAreAbsorbing := by
  intro s h
  unfold step stepWith
  cases hr : s.runState with
  | running => exact absurd hr h
  | halted | fatal => rfl

end Sys2Proof.Machine
end

/-! The memory of 20_memory.md: the range test, what a store leaves and what reads back, the fetch past the bound. -/

section
namespace Sys2Proof

/-- A byte that `Code8` reads is one of the list. -/
theorem lt_of_listCode8 {bs : List Byte} {k : Nat} {b : Byte} (h : listCode8 bs k = .ok b) : k < bs.length := by
  by_contra hk
  rw [listCode8_spec, dif_neg hk] at h
  cases h

/-- The four bytes that `Code32` reads are of the list. -/
theorem le_of_listCode32 {bs : List Byte} {k : Nat} {v : Word} (h : listCode32 bs k = .ok v) : k + 4 ≤ bs.length := by
  by_contra hk
  rw [listCode32_spec, dif_neg hk] at h
  cases h

end Sys2Proof

namespace Sys2Proof.Machine

open Sys2Proof.Safety

/-! ### The range test, stores and the round trip (R51 to R55) -/

/-- A 32-bit store in range succeeds, stores the word, and changes memory alone (R53). -/
theorem State.memWrite32_spec {s : State} {a : Word} (h : a.toNat + 4 ≤ s.cfg.memSize) (v : Word) :
    ∃ t, s.memWrite32 a v = .ok t ∧ Stored32 a v s t ∧ t = { s with mem := t.mem } :=
  ⟨_, State.memWrite32_ok h v, stored32_of_mem rfl, rfl⟩

/-- An 8-bit store in range succeeds, stores the byte, and changes memory alone (R53). -/
theorem State.memWrite8_spec {s : State} {a : Word} (h : a.toNat + 1 ≤ s.cfg.memSize) (v : Byte) :
    ∃ t, s.memWrite8 a v = .ok t ∧ Stored8 a v s t ∧ t = { s with mem := t.mem } :=
  ⟨_, State.memWrite8_ok h v, stored8_of_mem rfl, rfl⟩

/-- A state that differs from `s` in memory alone has the parameters of `s`. -/
theorem State.cfg_of_onlyMem {s t : State} (h : t = { s with mem := t.mem }) : t.cfg = s.cfg := by rw [h]

/-- Settles O23: the four accesses, each on either side of its bound. -/
theorem rangeFaultsExactlyPastTheBound : Obligations.RangeFaultsExactlyPastTheBound := by
  intro s a kind v b
  refine ⟨fun h => ⟨?_, ?_⟩, fun h => ⟨?_, ?_⟩, fun h => ⟨?_, ?_⟩, fun h => ⟨?_, ?_⟩⟩
  · exact State.memRead8_error h kind
  · exact State.memWrite8_error h b
  · exact State.memRead8_ok h kind
  · exact ⟨_, State.memWrite8_ok h b⟩
  · exact State.memRead32_error h kind
  · exact State.memWrite32_error h v
  · exact State.memRead32_ok h kind
  · exact ⟨_, State.memWrite32_ok h v⟩

/-- Settles O21: the store leaves the bound where it was, so the read is in range and gives what was stored. -/
theorem writeThenReadReturnsTheValue : Obligations.WriteThenReadReturnsTheValue := by
  refine fun s a kind => ⟨fun v h => ?_, fun v h => ?_⟩
  · obtain ⟨t, hwrite, hstored, honly⟩ := State.memWrite32_spec h v
    rw [← State.cfg_of_onlyMem honly] at h
    exact ⟨t, hwrite, by rw [State.memRead32_ok h, value32_of_stored hstored]⟩
  · obtain ⟨t, hwrite, hstored, honly⟩ := State.memWrite8_spec h v
    rw [← State.cfg_of_onlyMem honly] at h
    exact ⟨t, hwrite, by rw [State.memRead8_ok h, hstored.1]⟩

/-- Settles O22: each of the four bytes lies below the bound, so it is read as it was stored. -/
theorem storeIsLittleEndianAndLocal : Obligations.StoreIsLittleEndianAndLocal := by
  intro s a v h
  obtain ⟨t, hwrite, hstored, honly⟩ := State.memWrite32_spec h v
  refine ⟨t, hwrite, hstored, honly, fun k kind hk haddr => ?_⟩
  have hin : (a + BitVec.ofNat 32 k).toNat + 1 ≤ t.cfg.memSize := by
    rw [haddr, State.cfg_of_onlyMem honly]; omega
  rw [State.memRead8_ok hin, haddr, hstored.1 k hk]

/-! ### The fetch past the bound (R55, R111, R256) -/

/-- The range fault of a fetch that finds a truncated field: the field's address, its size, kind fetch (R55, R111). -/
def State.fetchFault (s : State) : DecodeError → FatalCause
  | .truncated k n => .memRange (s.pc + BitVec.ofNat 32 k) n .fetch

section BytesToTheBound

variable {s : State} {bs : List Byte} (hlt : s.cfg.memSize < 2 ^ 32) (hbound : s.pc.toNat + bs.length = s.cfg.memSize)

include hlt hbound

/-- The address of a field that starts at or below the bound does not wrap (R111). -/
theorem State.codeAddr_toNat {k : Nat} (hk : k ≤ bs.length) : (s.pc + BitVec.ofNat 32 k).toNat = s.pc.toNat + k := by
  rw [BitVec.toNat_add, BitVec.toNat_ofNat, Nat.add_mod_mod, Nat.mod_eq_of_lt (by omega)]

variable (hbytes : ∀ j, (h : j < bs.length) → s.byteAt (s.pc.toNat + j) = bs[j])
include hbytes

/-- Up to the bound, `Code8` over memory and over the bytes of memory agree, a truncated field being the range fault. -/
theorem State.code8_eq_listCode8 {k : Nat} (hk : k ≤ bs.length) :
    s.code8 k = (listCode8 bs k).mapError s.fetchFault := by
  have haddr := State.codeAddr_toNat hlt hbound hk
  rw [State.code8, listCode8_spec]
  by_cases h : k < bs.length
  · rw [State.memRead8_ok (by omega), haddr, hbytes k h, dif_pos h]; rfl
  · rw [State.memRead8_error (by omega), dif_neg h]; rfl

/-- Up to the bound, `Code32` over memory and over the bytes of memory agree, a truncated field being the range fault. -/
theorem State.code32_eq_listCode32 {k : Nat} (hk : k ≤ bs.length) :
    s.code32 k = (listCode32 bs k).mapError s.fetchFault := by
  have haddr := State.codeAddr_toNat hlt hbound hk
  rw [State.code32, listCode32_spec]
  by_cases h : k + 4 ≤ bs.length
  · rw [State.memRead32_ok (by omega), value32, haddr, hbytes k (by omega), Nat.add_assoc, hbytes (k + 1) (by omega),
      Nat.add_assoc, hbytes (k + 2) (by omega), Nat.add_assoc, hbytes (k + 3) (by omega), dif_pos h]
    rfl
  · rw [State.memRead32_error (by omega), dif_neg h]; rfl

/-- Where the bytes up to the bound end inside an instruction, its fetch meets the range fault of the field they end in. -/
theorem State.fetch_of_truncated {e : DecodeError} (h : decode s.cfg.opc bs = .error e) : s.fetch = .error (s.fetchFault e) := by
  have code8 {k : Nat} := State.code8_eq_listCode8 (k := k) hlt hbound hbytes
  have code32 {k : Nat} := State.code32_eq_listCode32 (k := k) hlt hbound hbytes
  refine decodeWith_fails_alike (L := bs.length) (φ := s.fetchFault) ?_ ?_ ?_ ?_ h
  · intro k b hb
    have hk : k < bs.length := lt_of_listCode8 hb
    exact ⟨hk, by rw [code8 hk.le, hb]; rfl⟩
  · intro k v hv
    have hk : k + 4 ≤ bs.length := le_of_listCode32 hv
    exact ⟨hk, by rw [code32 (by omega), hv]; rfl⟩
  · intro k e hk he
    rw [code8 hk, he]; rfl
  · intro k e hk he
    rw [code32 hk, he]; rfl

end BytesToTheBound

/-- A running machine that passes both halt tests takes the fatal stop its fetch meets (R116, R252). -/
theorem step_of_fetch_error {s : State} {c : FatalCause} (hr : s.runState = .running) (h0 : s.pc ≠ 0)
    (hpc : s.pc.toNat < s.cfg.memSize) (hf : s.fetch = .error c) : step s = .next (s.raiseFatal c) := by
  simp only [step, stepWith, hr, if_neg h0, if_neg (Nat.not_le.mpr hpc), hf]

/-- Settles O9: the fetch faults at the field the bytes end in, and a fetch fault is an access past the bound. -/
theorem fetchPastTheBoundIsFatal : Obligations.FetchPastTheBoundIsFatal := by
  intro s bs k n hr _ hlt h0 hpc hbound hbytes hdecode
  have hf : s.fetch = .error (.memRange (s.pc + BitVec.ofNat 32 k) n .fetch) :=
    State.fetch_of_truncated hlt hbound hbytes hdecode
  have hlegal := State.fetch_error_legal hf
  simp only [fatalLegal, Bool.and_eq_true, decide_eq_true_eq] at hlegal
  exact ⟨hlegal.2, _, step_of_fetch_error hr h0 hpc hf, fatalFrom_raiseFatal s _⟩

end Sys2Proof.Machine
end

/-! The encoding of 30_encoding.md: the fields whose absence is refused, the unrecognized first bytes, worked encodings, and the
SIB forms that are encoded but have no address. -/

section
namespace Sys2Proof

/-! ### Where a list of bytes is refused (R80, R111) -/

/-- A field that ends at or before offset `L` cannot be read, for the reason `e`. -/
def FieldFails {ε : Type} (c8 : Nat → Except ε Byte) (c32 : Nat → Except ε Word) (L : Nat) (e : ε) : Prop :=
  ∃ k, (k + 1 ≤ L ∧ c8 k = .error e) ∨ (k + 4 ≤ L ∧ c32 k = .error e)

section Readers

variable {ε : Type} {tab : OpcodeTable} {c8 : Nat → Except ε Byte} {c32 : Nat → Except ε Word} {e : ε} {k L M : Nat}

theorem FieldFails.of_code8 (hk : k + 1 ≤ L) (h : c8 k = .error e) : FieldFails c8 c32 L e := ⟨k, .inl ⟨hk, h⟩⟩

theorem FieldFails.of_code32 (hk : k + 4 ≤ L) (h : c32 k = .error e) : FieldFails c8 c32 L e := ⟨k, .inr ⟨hk, h⟩⟩

theorem FieldFails.mono (hLM : L ≤ M) (h : FieldFails c8 c32 L e) : FieldFails c8 c32 M e := by
  obtain ⟨k, ⟨hk, h⟩ | ⟨hk, h⟩⟩ := h
  · exact .of_code8 (hk.trans hLM) h
  · exact .of_code32 (hk.trans hLM) h

/-- The SIB byte, where one is read, is the third byte. -/
theorem readSib_fieldFails {hasSib : Bool} (h : readSib c8 hasSib = .error e) : FieldFails c8 c32 3 e := by
  cases hasSib with
  | false => cases h
  | true =>
    simp only [readSib, bind_eq_error, pure_eq_error, and_false, exists_false, or_false] at h
    exact .of_code8 le_rfl h

/-- A displacement has at most four bytes. -/
theorem readDisp_fieldFails {mod : BitVec 2} {rm : RegNum} (h : readDisp c8 c32 (dispSize mod rm) k = .error e) :
    FieldFails c8 c32 (k + 4) e := by
  rcases dispSize_cases mod rm with hd | hd | hd <;> rw [hd] at h
  · cases h
  · simp only [readDisp, bind_eq_error, pure_eq_error, and_false, exists_false, or_false] at h
    exact .of_code8 (by omega) h
  · exact .of_code32 le_rfl h

/-- Opcode byte, ModRM byte, SIB byte and displacement are at most seven bytes (R84). -/
theorem parseModRM_fieldFails (h : parseModRM c8 c32 = .error e) : FieldFails c8 c32 7 e := by
  simp only [parseModRM, bind_eq_error, pure_eq_error, and_false, exists_false, or_false] at h
  rcases h with h | ⟨b, -, h | ⟨sib, -, h⟩⟩
  · exact .of_code8 (by decide) h
  · exact (readSib_fieldFails h).mono (by decide)
  · exact (readDisp_fieldFails h).mono (by split <;> decide)

/-- The operands of every format end at or before the eleventh byte, which MOV r/m32, imm32 reaches (R80, R81). -/
theorem decodeOperands_fieldFails {b : Byte} {o : Opcode} (h : decodeOperands tab c8 c32 b o = .error e) :
    FieldFails c8 c32 maxLength e := by
  have descriptor (h : parseModRM c8 c32 = .error e) : FieldFails c8 c32 maxLength e :=
    (parseModRM_fieldFails h).mono (by decide)
  cases o <;>
    simp only [decodeOperands, bind_eq_error, pure_eq_error, and_false, exists_false, or_false, reduceCtorEq] at h
  case movR32Imm32 | pushImm32 | cmpEaxImm32 | jmpRel32 | callRel32 => exact .of_code32 (by decide) h
  case pushImm8 | cmpAlImm8 | jmpRel8 | joRel8 | jnoRel8 | jcRel8 | jncRel8 | jzRel8 | jnzRel8 | jsRel8 | jnsRel8 | jlRel8
      | jleRel8 | intImm8 => exact .of_code8 (by decide) h
  case movRm8R8 | movRm32R32 | movR8Rm8 | movR32Rm32 | addRm32R32 | grpFF | cmpR32Rm32 => exact descriptor h
  case movRm32Imm32 =>
    rcases h with h | ⟨m, -, h⟩
    · exact descriptor h
    · have hlen : m.len ≤ 6 := m.len_bounds.2
      exact .of_code32 (by unfold maxLength; omega) h
  case grp83 =>
    rcases h with h | ⟨m, -, h⟩
    · exact descriptor h
    · have hlen : m.len ≤ 6 := m.len_bounds.2
      exact .of_code8 (by unfold maxLength; omega) (decodeGrp83_eq_error.mp h).2

/-- Decoding fails at a field that ends at or before the eleventh byte (R80). -/
theorem decodeWith_fieldFails (h : decodeWith tab c8 c32 = .error e) : FieldFails c8 c32 maxLength e := by
  rcases bind_eq_error.mp h with h | ⟨b, -, h⟩
  · exact .of_code8 (by decide) h
  · cases hl : lookup tab b with
    | none => simp only [hl, pure_eq_error] at h
    | some o => simp only [hl] at h; exact decodeOperands_fieldFails h

end Readers

/-- A byte that cannot be read from a list lies past its end. -/
theorem listCode8_eq_error {bs : List Byte} {k : Nat} {e : DecodeError} :
    listCode8 bs k = .error e ↔ e = .truncated k 1 ∧ bs.length < k + 1 := by
  by_cases hk : k < bs.length
  · simp [listCode8_spec, hk]
  · simp [listCode8_spec, hk, Nat.lt_succ_of_le (Nat.not_lt.mp hk), eq_comm]

/-- A word that cannot be read from a list ends past its end. -/
theorem listCode32_eq_error {bs : List Byte} {k : Nat} {e : DecodeError} :
    listCode32 bs k = .error e ↔ e = .truncated k 4 ∧ bs.length < k + 4 := by
  by_cases hk : k + 4 ≤ bs.length
  · simp [listCode32_spec, hk, Nat.not_lt.mpr hk]
  · simp [listCode32_spec, hk, Nat.not_le.mp hk, eq_comm]

/-- Settles O3: decoding fails at a field within the longest instruction, and a field of a list fails for its end alone. -/
theorem onlyTruncationIsRefused : Obligations.OnlyTruncationIsRefused := by
  intro tab bs e h
  obtain ⟨k, ⟨hk, h⟩ | ⟨hk, h⟩⟩ := decodeWith_fieldFails h
  · obtain ⟨rfl, hlen⟩ := listCode8_eq_error.mp h
    exact ⟨k, 1, rfl, .inl rfl, hlen, hk⟩
  · obtain ⟨rfl, hlen⟩ := listCode32_eq_error.mp h
    exact ⟨k, 4, rfl, .inr rfl, hlen, hk⟩

/-! ### Unrecognized first bytes (R94, R118) -/

/-- A list decodes to an unrecognized byte exactly when that is its first byte and the table has no entry for it: what is
decoded is well-formed, and its encoding is the head of the list. -/
theorem decode_eq_unrecognized {tab : OpcodeTable} {b c : Byte} {rest : List Byte} :
    decode tab (b :: rest) = .ok (.unrecognized c) ↔ c = b ∧ lookup tab b = none := by
  constructor
  · intro h
    have hcb : c = b := (List.cons_prefix_cons.mp (encode_isPrefix_of_decode h)).1
    have hwf : (lookup tab c).isNone = true := decodeWith_wf h
    exact ⟨hcb, hcb ▸ Option.isNone_iff_eq_none.mp hwf⟩
  · rintro ⟨rfl, hl⟩
    exact decode_cons_none hl

/-- Settles O4: by what the table has no entry for, which says nothing about the bytes that follow. -/
theorem unrecognizedBytesAreTheListed : Obligations.UnrecognizedBytesAreTheListed := by
  refine ⟨fun b rest => ?_, fun tab b c rest h => ?_, by decide +kernel⟩
  · simp only [decode_eq_unrecognized, exists_eq_left, lookup_none_iff]
  · obtain ⟨hcb, hl⟩ := decode_eq_unrecognized.mp h
    exact ⟨hcb, fun other => decode_cons_none hl⟩

/-! ### Worked encodings (R98) -/

/-- The bytes that encode a well-formed instruction decode to it. -/
theorem decode_eq_of_encode_eq {tab : OpcodeTable} (ht : tab.legal = true) {i : Instr} {bs : List Byte}
    (hi : i.wf tab = true) (hbs : encode tab i = bs) : decode tab bs = .ok i := by
  rw [← hbs, ← List.append_nil (encode tab i)]
  exact decode_encode ht hi []

/-- Settles O5: the bytes of each row encode a well-formed instruction. -/
theorem workedEncodingsDecode : Obligations.WorkedEncodingsDecode := by
  have row := @decode_eq_of_encode_eq .ia32 OpcodeTable.ia32_legal
  refine ⟨OpcodeTable.ia32_legal, row ?_ ?_, row ?_ ?_, row ?_ ?_, row ?_ ?_, row ?_ ?_, row ?_ ?_, row ?_ ?_, row ?_ ?_⟩ <;>
    decide

end Sys2Proof

namespace Sys2Proof.Machine

open Sys2Proof.Safety

/-! ### Operands that do not resolve (R95, R133, R253) -/

section Unresolved

variable {s : State} {m : ModRM} {c : FatalCause} (h3 : m.mod ≠ 3) (ha : s.effAddr m = .error c)
include h3 ha

theorem State.readRM32_error : s.readRM32 m = .error c := by rw [State.readRM32, if_neg h3, bind_of_error _ ha]

theorem State.readRM8_error : s.readRM8 m = .error c := by rw [State.readRM8, if_neg h3, bind_of_error _ ha]

theorem State.writeRM32_error (v : Word) : s.writeRM32 m v = .error c := by
  rw [State.writeRM32, if_neg h3, bind_of_error _ ha]

theorem State.writeRM8_error (v : Byte) : s.writeRM8 m v = .error c := by
  rw [State.writeRM8, if_neg h3, bind_of_error _ ha]

end Unresolved

/-- An instruction whose rule fails at its first access takes that fatal stop, precisely (R253). -/
theorem fatalFrom_of_first_error {α : Type} {i : Instr} {s : State} {c : FatalCause} {x : Except FatalCause α}
    {f : α → Except FatalCause State} (hx : x = .error c) (hi : exec i s = complete s (x >>= f)) :
    ∃ t, exec i s = .next t ∧ FatalFrom c s t :=
  ⟨s.raiseFatal c, by rw [hi, bind_of_error f hx, complete_error], fatalFrom_raiseFatal s c⟩

/-- Settles O27: each of the eleven begins with an access to the operand, whose address does not resolve. -/
theorem sibFormsAreFatal : Obligations.SibFormsAreFatal := by
  intro s m i h3 h4 hi
  have ha := State.effAddr_sib (s := s) h3 h4
  have read32 := State.readRM32_error h3 ha
  have read8 := State.readRM8_error h3 ha
  have write32 := State.writeRM32_error h3 ha
  have write8 := State.writeRM8_error h3 ha
  rcases hi with ⟨v, rfl⟩ | rfl | rfl | rfl | hreads32
  · exact fatalFrom_of_first_error (write32 v) rfl
  · exact fatalFrom_of_first_error (write8 (s.reg8 m.reg)) rfl
  · exact fatalFrom_of_first_error (write32 (s.reg m.reg)) rfl
  · exact fatalFrom_of_first_error read8 rfl
  · rcases hreads32 with rfl | rfl | ⟨k, rfl⟩ | ⟨k, rfl⟩ | ⟨k, rfl⟩ | rfl | rfl <;>
      exact fatalFrom_of_first_error read32 rfl

end Sys2Proof.Machine
end

/-! The fetch and the step of 40_fetch_decode.md: what each branch of `Step()` answers, the fetch of bytes that lie in memory, the
halt tests, and the halt signal of an unrecognized byte. -/

section
namespace Sys2Proof.Machine

open Sys2Proof.Safety

/-! ### The branches of a step of the running machine (R116) -/

section Running

variable {s : State} (hr : s.runState = .running)
include hr

theorem step_of_pc_zero (h0 : s.pc = 0) : step s = .next (s.halt .pcZero) := by
  simp only [step, stepWith, hr, if_pos h0]

theorem step_of_pc_bound (h0 : s.pc ≠ 0) (hb : s.cfg.memSize ≤ s.pc.toNat) : step s = .next (s.halt .pcBound) := by
  simp only [step, stepWith, hr, if_neg h0, if_pos hb]

theorem step_of_fetch_ok (h0 : s.pc ≠ 0) (hpc : s.pc.toNat < s.cfg.memSize) {i : Instr} (hf : s.fetch = .ok i) :
    step s = exec i s := by
  simp only [step, stepWith, hr, if_neg h0, if_neg (Nat.not_le.mpr hpc), hf]

end Running

/-- Settles O7: the two halts, the second test being reached where the first fails. -/
theorem stepHaltsAtZeroAndAtTheBound : Obligations.StepHaltsAtZeroAndAtTheBound :=
  fun _ hr => ⟨step_of_pc_zero hr, step_of_pc_bound hr⟩

/-! ### An instruction whose bytes lie in memory (R111) -/

section BytesInMemory

variable {s : State} {bs : List Byte} (hsize : s.cfg.memSize ≤ 2 ^ 32) (hin : s.pc.toNat + bs.length ≤ s.cfg.memSize)
include hsize hin

/-- The address of a field that starts inside the bytes does not wrap, even where memory fills the address space. -/
theorem State.codeAddr_toNat_of_lt {k : Nat} (hk : k < bs.length) :
    (s.pc + BitVec.ofNat 32 k).toNat = s.pc.toNat + k := by
  rw [BitVec.toNat_add, BitVec.toNat_ofNat, Nat.add_mod_mod, Nat.mod_eq_of_lt (by omega)]

variable (hbytes : ∀ k, (h : k < bs.length) → s.byteAt (s.pc.toNat + k) = bs[k])
include hbytes

/-- `Code8` over memory answers what it answers over the bytes. -/
theorem State.code8_of_listCode8 {k : Nat} {b : Byte} (h : listCode8 bs k = .ok b) : s.code8 k = .ok b := by
  have hk : k < bs.length := lt_of_listCode8 h
  have haddr := State.codeAddr_toNat_of_lt hsize hin hk
  rw [listCode8_spec, dif_pos hk] at h
  cases h
  rw [State.code8, State.memRead8_ok (by omega), haddr, hbytes k hk]

/-- `Code32` over memory answers what it answers over the bytes. -/
theorem State.code32_of_listCode32 {k : Nat} {v : Word} (h : listCode32 bs k = .ok v) : s.code32 k = .ok v := by
  have hk : k + 4 ≤ bs.length := le_of_listCode32 h
  have haddr := State.codeAddr_toNat_of_lt hsize hin (k := k) (by omega)
  rw [listCode32_spec, dif_pos hk] at h
  cases h
  rw [State.code32, State.memRead32_ok (by omega), value32, haddr, hbytes k (by omega), Nat.add_assoc,
    hbytes (k + 1) (by omega), Nat.add_assoc, hbytes (k + 2) (by omega), Nat.add_assoc, hbytes (k + 3) (by omega)]

/-- The fetch reads the instruction to which the bytes at the pc decode. -/
theorem State.fetch_of_decode {i : Instr} (h : decode s.cfg.opc bs = .ok i) : s.fetch = .ok i :=
  decodeWith_mono (fun _ _ => State.code8_of_listCode8 hsize hin hbytes)
    (fun _ _ => State.code32_of_listCode32 hsize hin hbytes) h

end BytesInMemory

/-- What decodes has a first byte. -/
theorem length_pos_of_decode {tab : OpcodeTable} {bs : List Byte} {i : Instr} (h : decode tab bs = .ok i) :
    0 < bs.length := by
  obtain ⟨b, hb, -⟩ := bind_eq_ok.mp h
  exact lt_of_listCode8 hb

/-- Settles O6: the fetch finds the instruction, whose first byte lies below the bound. -/
theorem stepRunsTheInstructionAtPc : Obligations.StepRunsTheInstructionAtPc := by
  intro s bs i hr hwf h0 hin hbytes hdecode
  have hsize : s.cfg.memSize ≤ 2 ^ 32 := (of_decide_eq_true hwf).2
  have hpos := length_pos_of_decode hdecode
  have hf : s.fetch = .ok i := State.fetch_of_decode hsize hin hbytes hdecode
  exact ⟨State.fetch_wf hf, step_of_fetch_ok hr h0 (by omega) hf⟩

/-! ### What a step ends in (R116, R117, R120) -/

/-- An instruction of a running state leaves it running or stops it fatally: none halts. -/
theorem Outcome.not_halted {wf : Bool} {s t : State} (h : Outcome wf s t) (hr : s.runState = .running) :
    t.runState ≠ .halted := by
  rcases h with ⟨c, rfl, -⟩ | ⟨⟨-, hrun, -⟩, -⟩
  · rw [State.raiseFatal_runState]; decide
  · rw [hrun, hr]; decide

/-- Settles O11: of the branches of a step, the two halt tests alone end HALTED. -/
theorem haltsOnlyAtZeroOrBound : Obligations.HaltsOnlyAtZeroOrBound := by
  intro s t hr h ht
  rcases step_cases h with ⟨hstop, -⟩ | ⟨-, hpc, rfl⟩ | ⟨-, h0, hpc, rfl⟩ | ⟨-, -, -, ⟨c, -, rfl⟩ | ⟨i, -, hi⟩⟩
  · exact absurd hr hstop
  · exact .inl ⟨hpc, rfl⟩
  · exact .inr ⟨h0, hpc, rfl⟩
  · rw [State.raiseFatal_runState] at ht; cases ht
  · exact absurd ht ((exec_cases hi).not_halted hr)

/-- Every instruction answers a next state, its own or the fatal stop's (R117, R252). -/
theorem exec_exists (i : Instr) (s : State) : ∃ t, exec i s = .next t := by
  obtain ⟨r, hr⟩ := exec_complete i s
  rw [hr]
  exact complete_exists s r

/-- Every step answers a next state: each branch is one, or is the execution of an instruction. -/
theorem step_exists (s : State) : ∃ t, step s = .next t := by
  by_cases hr : s.runState = .running
  · by_cases h0 : s.pc = 0
    · exact ⟨_, step_of_pc_zero hr h0⟩
    · by_cases hb : s.cfg.memSize ≤ s.pc.toNat
      · exact ⟨_, step_of_pc_bound hr h0 hb⟩
      · cases hf : s.fetch with
        | error c => exact ⟨_, step_of_fetch_error hr h0 (Nat.not_le.mp hb) hf⟩
        | ok i => rw [step_of_fetch_ok hr h0 (Nat.not_le.mp hb) hf]; exact exec_exists i s
  · exact ⟨s, stoppedStatesAreAbsorbing s hr⟩

/-- Settles O12: instruction by instruction, and branch by branch of the step. -/
theorem everyStepAnswersANextState : Obligations.EveryStepAnswersANextState := ⟨exec_exists, step_exists⟩

/-! ### The unrecognized byte (R118) -/

/-- An unrecognized byte is reported with its address, and the pc is forced to 0. -/
theorem exec_unrecognized (b : Byte) (s : State) :
    exec (.unrecognized b) s = .next ((s.emit (.unrecognizedOpcode b s.pc)).setPc 0) := rfl

/-- Settles O58: the state after it is at pc 0, where a step of the running machine halts. -/
theorem unrecognizedOpcodeForcesTheHalt : Obligations.UnrecognizedOpcodeForcesTheHalt := by
  intro s b
  refine ⟨_, exec_unrecognized b s, rfl, rfl, SameRegs.of_regs rfl, rfl, SameMem.of_mem rfl, ⟨rfl, rfl, rfl, rfl⟩, rfl, rfl, ?_⟩
  intro hr
  exact ⟨_, step_of_pc_zero hr rfl, rfl, rfl⟩

end Sys2Proof.Machine
end

/-! The addressing of 41_modrm_addressing.md: the cells of the effective-address table, the worked example of a negative
displacement, and the operands past the memory bound. -/

section
namespace Sys2Proof.Machine

open Sys2Proof.Safety

/-! ### The effective-address table (R132, R134, R136) -/

section Table

variable {s : State} {m : ModRM}

theorem State.effAddr_mode3 (h3 : m.mod = 3) : s.effAddr m = .error (.eaMode3 m.rm) := by
  rw [State.effAddr, if_pos h3]

theorem State.effAddr_absolute (h0 : m.mod = 0) (h5 : m.rm = 5) : s.effAddr m = .ok m.disp := by
  simp [State.effAddr, h0, h5]

theorem State.effAddr_base (h0 : m.mod = 0) (h4 : m.rm ≠ 4) (h5 : m.rm ≠ 5) : s.effAddr m = .ok (s.reg m.rm) := by
  have h3 : m.mod ≠ 3 := by rw [h0]; decide
  rw [State.effAddr, if_neg h3, if_neg h4, if_neg fun h => h5 h.2, if_pos h0]

theorem State.effAddr_base_disp (h0 : m.mod ≠ 0) (h3 : m.mod ≠ 3) (h4 : m.rm ≠ 4) :
    s.effAddr m = .ok (s.reg m.rm + m.disp) := by
  rw [State.effAddr, if_neg h3, if_neg h4, if_neg fun h => h0 h.1, if_neg h0]

/-- The rows of modes 1 and 2, which differ in the width of the displacement alone. -/
theorem State.effAddr_displaced_row (h0 : m.mod ≠ 0) (h3 : m.mod ≠ 3) :
    (m.rm = 4 → s.effAddr m = .error (.sibNotImplemented m.mod)) ∧ (m.rm = 5 → s.effAddr m = .ok (s.reg EBP + m.disp)) ∧
      (m.rm ≠ 4 → s.effAddr m = .ok (s.reg m.rm + m.disp)) := by
  refine ⟨State.effAddr_sib h3, fun h5 => ?_, State.effAddr_base_disp h0 h3⟩
  have h4 : m.rm ≠ 4 := by rw [h5]; decide
  rw [State.effAddr_base_disp h0 h3 h4, h5]

end Table

/-- Settles O25: row by row, modes 1 and 2 sharing theirs. -/
theorem effectiveAddressTable : Obligations.EffectiveAddressTable := by
  intro s m
  refine ⟨fun h => ⟨fun h4 => ?_, State.effAddr_absolute h, State.effAddr_base h⟩, fun h => ?_, fun h => ?_,
    State.effAddr_mode3⟩
  · exact h ▸ State.effAddr_sib (by rw [h]; decide) h4
  · exact h ▸ State.effAddr_displaced_row (by rw [h]; decide) (by rw [h]; decide)
  · exact h ▸ State.effAddr_displaced_row (by rw [h]; decide) (by rw [h]; decide)

/-! ### The worked example (R135) -/

/-- The descriptor of the example: mode 1, base 0, displacement -2. -/
def negativeDisplacement (reg : RegNum) : ModRM := ⟨1, reg, 0, none, 0xFFFFFFFE⟩

theorem negativeDisplacement_wf (reg : RegNum) : (negativeDisplacement reg).wf = true := by
  simp [negativeDisplacement, ModRM.wf, ModRM.hasSib, ModRM.dispFits, dispSize]

/-- Its bytes are the ModRM byte and the displacement byte 0xFE. -/
theorem negativeDisplacement_encode (reg : RegNum) :
    (negativeDisplacement reg).encode = [(1#2 ++ reg ++ 0#3 : Byte), 0xFE] := by
  simp [negativeDisplacement, ModRM.encode, ModRM.byte, encodeDisp, dispSize]

/-- Settles O26: the bytes are the encoding of the descriptor, and 100 + (2^32 - 2) wraps to 98. -/
theorem negativeDisplacementExample : Obligations.NegativeDisplacementExample := by
  intro s op reg rest hbase
  constructor
  · have hparse := parseModRM_encode op _ (negativeDisplacement_wf reg) rest
    rw [negativeDisplacement_encode] at hparse
    exact hparse
  · have hsum : (100 : Word) + 0xFFFFFFFE = 98 := by decide
    rw [State.effAddr_base_disp (by simp) (by simp) (by simp), hbase, hsum]

/-! ### Operands past the memory bound (R137 to R140, R256) -/

section PastTheBound

variable {s : State} {m : ModRM} {a : Word} (ha : s.effAddr m = .ok a)
include ha

theorem State.readRM32_past_bound (h : s.cfg.memSize < a.toNat + 4) : s.readRM32 m = .error (.memRange a 4 .read) :=
  (State.readRM32_mem ha).trans (State.memRead32_error h .read)

theorem State.readRM8_past_bound (h : s.cfg.memSize < a.toNat + 1) : s.readRM8 m = .error (.memRange a 1 .read) :=
  (State.readRM8_mem ha).trans (State.memRead8_error h .read)

theorem State.writeRM32_past_bound (h : s.cfg.memSize < a.toNat + 4) (v : Word) :
    s.writeRM32 m v = .error (.memRange a 4 .write) :=
  (State.writeRM32_mem ha v).trans (State.memWrite32_error h v)

theorem State.writeRM8_past_bound (h : s.cfg.memSize < a.toNat + 1) (v : Byte) :
    s.writeRM8 m v = .error (.memRange a 1 .write) :=
  (State.writeRM8_mem ha v).trans (State.memWrite8_error h v)

end PastTheBound

/-- Settles O28: the first access of each form is the read, or the write where there is no read, that passes the bound. -/
theorem operandsPastTheBoundAreFatal : Obligations.OperandsPastTheBoundAreFatal := by
  intro s m a i ha
  refine ⟨fun h hi => ?_, fun h hi => ?_, fun h hi => ?_, fun h hi => ?_⟩
  · have read32 := State.readRM32_past_bound ha h
    rcases hi with rfl | rfl | ⟨k, rfl⟩ | ⟨k, rfl⟩ | ⟨k, rfl⟩ | rfl | rfl <;>
      exact fatalFrom_of_first_error read32 rfl
  · have write32 := State.writeRM32_past_bound ha h
    rcases hi with ⟨v, rfl⟩ | rfl
    · exact fatalFrom_of_first_error (write32 v) rfl
    · exact fatalFrom_of_first_error (write32 (s.reg m.reg)) rfl
  · subst hi
    exact fatalFrom_of_first_error (State.readRM8_past_bound ha h) rfl
  · subst hi
    exact fatalFrom_of_first_error (State.writeRM8_past_bound ha h (s.reg8 m.reg)) rfl

end Sys2Proof.Machine
end

/-! The flag engine and the ALU of 42_flag_engine_alu.md: each flag of a subtraction, its signed reading, and the ten conditional
jumps that test the flags. -/

section
namespace Sys2Proof.Machine

open Sys2Proof.Safety

/-! ### The flags of a subtraction (R150, R151) -/

/-- The unbounded difference of R150, cut to 32 bits, is the difference modulo `2^32`. -/
theorem ofInt_toNat_sub_toNat (a b : Word) : BitVec.ofInt 32 ((a.toNat : Int) - (b.toNat : Int)) = a - b := by
  apply BitVec.eq_of_toInt_eq
  rw [BitVec.toInt_ofInt, BitVec.toInt_sub, BitVec.toInt_eq_toNat_bmod, BitVec.toInt_eq_toNat_bmod, ← Int.sub_bmod]

@[simp] theorem subFlags_CF (a b : Word) : (subFlags a b).CF = decide (a.toNat < b.toNat) :=
  decide_eq_decide.mpr (by omega)

/-- Cut to 32 bits the difference is zero only for equal operands. -/
@[simp] theorem subFlags_ZF (a b : Word) : (subFlags a b).ZF = decide (a = b) := by
  have hzero : (subFlags a b).ZF = (a - b == 0) := by rw [← ofInt_toNat_sub_toNat]; rfl
  rw [hzero, beq_eq_decide]
  exact decide_eq_decide.mpr sub_eq_zero

@[simp] theorem subFlags_SF (a b : Word) : (subFlags a b).SF = (a - b).msb := by
  rw [BitVec.msb_eq_getLsbD_last, ← ofInt_toNat_sub_toNat]; rfl

@[simp] theorem subFlags_OF (a b : Word) : (subFlags a b).OF = (a.msb != b.msb && (a - b).msb != a.msb) := by
  simp only [BitVec.msb_eq_getLsbD_last, ← ofInt_toNat_sub_toNat a b]; rfl

/-- Settles O18: R151 reads the four flags off their equations. -/
theorem subtractionFlagRule : Obligations.SubtractionFlagRule := by
  intro a b
  refine ⟨?_, ?_, ?_, ?_⟩
  · rw [subFlags_CF, decide_eq_true_iff]
  · rw [subFlags_ZF, decide_eq_true_iff]
  · rw [subFlags_SF]
  · rw [subFlags_OF, Bool.and_eq_true, bne_iff_ne, bne_iff_ne]

/-! ### The signed reading of the flags (R152) -/

/-- The overflow of R150 is the signed overflow of a subtraction: the signs of the operands differ and the result has the sign of
the second. -/
theorem subFlags_OF_eq_ssubOverflow (a b : Word) : (subFlags a b).OF = a.ssubOverflow b := by
  rw [subFlags_OF, BitVec.ssubOverflow_eq]
  cases a.msb <;> cases b.msb <;> cases (a - b).msb <;> rfl

/-- R152 (i). -/
theorem subFlags_OF_iff (a b : Word) :
    (subFlags a b).OF = true ↔ a.toInt - b.toInt < -2 ^ 31 ∨ 2 ^ 31 - 1 < a.toInt - b.toInt := by
  rw [subFlags_OF_eq_ssubOverflow, BitVec.ssubOverflow, Bool.or_eq_true, decide_eq_true_iff, decide_eq_true_iff]
  omega

/-- Where the signed difference leaves 32 bits the signs of the operands differ, so the sign of the first orders them, and the
result has the other sign. -/
theorem msb_sub_eq_false_iff_of_overflow {a b : Word} (h : (subFlags a b).OF = true) :
    (a - b).msb = false ↔ a.toInt < b.toInt := by
  rw [subFlags_OF, Bool.and_eq_true, bne_iff_ne, bne_iff_ne] at h
  obtain ⟨hab, hr⟩ := h
  rw [Bool.eq_not_of_ne hr, Bool.not_eq_false']
  simp only [BitVec.msb_eq_toInt, ne_eq, decide_eq_decide, decide_eq_true_iff] at hab ⊢
  omega

/-- Where the signed difference fits in 32 bits it is the result, whose sign orders the operands. -/
theorem msb_sub_eq_true_iff_of_no_overflow {a b : Word} (h : (subFlags a b).OF = false) :
    (a - b).msb = true ↔ a.toInt < b.toInt := by
  rw [subFlags_OF_eq_ssubOverflow, ← Bool.not_eq_true] at h
  rw [BitVec.msb_eq_toInt, BitVec.toInt_sub_of_not_ssubOverflow h, decide_eq_true_iff, sub_neg]

/-- R152 (ii): "less" is the signed comparison. -/
theorem condHolds_L_subFlags (a b : Word) : condHolds (subFlags a b) .L = true ↔ a.toInt < b.toInt := by
  rw [condHolds, subFlags_SF]
  cases hov : (subFlags a b).OF with
  | true => rw [Bool.bne_true, Bool.not_eq_true', msb_sub_eq_false_iff_of_overflow hov]
  | false => rw [Bool.bne_false, msb_sub_eq_true_iff_of_no_overflow hov]

/-- R152 (iii): "less or equal" is the signed comparison, because words with the same signed value are equal. -/
theorem condHolds_LE_subFlags (a b : Word) : condHolds (subFlags a b) .LE = true ↔ a.toInt ≤ b.toInt := by
  have hsplit : condHolds (subFlags a b) .LE = ((subFlags a b).ZF || condHolds (subFlags a b) .L) := rfl
  rw [hsplit, Bool.or_eq_true, condHolds_L_subFlags, subFlags_ZF, decide_eq_true_iff, ← BitVec.toInt_inj]
  omega

/-- R152 (iv). -/
theorem subFlags_CF_or_ZF (a b : Word) : ((subFlags a b).CF || (subFlags a b).ZF) = true ↔ a.toNat ≤ b.toNat := by
  rw [Bool.or_eq_true, subFlags_CF, subFlags_ZF, decide_eq_true_iff, decide_eq_true_iff, ← BitVec.toNat_inj]
  omega

/-- R152 (v): no word is below zero. -/
theorem subFlags_zero_CF (a : Word) : (subFlags a 0).CF = false := by
  rw [subFlags_CF, decide_eq_false_iff_not]
  exact Nat.not_lt_zero _

/-- R152 (v): the result has the sign of the first operand. -/
theorem subFlags_zero_OF (a : Word) : (subFlags a 0).OF = false := by
  rw [subFlags_OF, sub_zero, bne_self_eq_false, Bool.and_false]

/-- R152 (vi). -/
theorem subFlags_self (a : Word) : subFlags a a = { CF := false, ZF := true, SF := false, OF := false } :=
  calc subFlags a a
    _ = ⟨(subFlags a a).CF, (subFlags a a).ZF, (subFlags a a).SF, (subFlags a a).OF⟩ := rfl
    _ = { CF := false, ZF := true, SF := false, OF := false } := by simp

/-- Settles O19: the six consequences of R152. -/
theorem subtractionFlagsCompareSigned : Obligations.SubtractionFlagsCompareSigned := fun a b =>
  ⟨subFlags_OF_iff a b, condHolds_L_subFlags a b, condHolds_LE_subFlags a b, subFlags_CF_or_ZF a b, subFlags_zero_CF a,
    subFlags_zero_OF a, subFlags_self a⟩

/-! ### The conditional jumps (R157, R210, R213 to R222) -/

/-- "Less" compares the sign with the overflow. -/
theorem condHolds_L (f : Flags) : condHolds f .L = decide (f.SF ≠ f.OF) := by
  rw [condHolds, bne, beq_eq_decide, decide_not]

/-- "Less or equal" is zero or "less". -/
theorem condHolds_LE (f : Flags) : condHolds f .LE = (f.ZF || decide (f.SF ≠ f.OF)) := by
  rw [← condHolds_L]; rfl

/-- The state a conditional jump answers differs in the pc alone: the target where the predicate holds, else the byte after the
instruction. -/
theorem jumpIf_eq (c : Cond) (d : Byte) (s : State) :
    jumpIf c d s = .next (s.setPc (if condHolds s.flags c then s.pc + 2 + d.signExtend 32 else s.pc + 2)) := by
  rw [jumpIf, complete_ok, apply_ite s.setPc]
  rfl

/-- Settles O47: each of the ten jumps is the shared operation at its own predicate. -/
theorem conditionalJumpsTestTheirPredicate : Obligations.ConditionalJumpsTestTheirPredicate := by
  intro s d p i hi
  have jump : ∃ c, exec i s = jumpIf c d s ∧ p = condHolds s.flags c := by
    rcases hi with ⟨rfl, rfl⟩ | ⟨rfl, rfl⟩ | ⟨rfl, rfl⟩ | ⟨rfl, rfl⟩ | ⟨rfl, rfl⟩ | ⟨rfl, rfl⟩ | ⟨rfl, rfl⟩ | ⟨rfl, rfl⟩ |
      ⟨rfl, rfl⟩ | ⟨rfl, rfl⟩
    · exact ⟨.O, rfl, rfl⟩
    · exact ⟨.NO, rfl, rfl⟩
    · exact ⟨.C, rfl, rfl⟩
    · exact ⟨.NC, rfl, rfl⟩
    · exact ⟨.Z, rfl, rfl⟩
    · exact ⟨.NZ, rfl, rfl⟩
    · exact ⟨.S, rfl, rfl⟩
    · exact ⟨.NS, rfl, rfl⟩
    · exact ⟨.L, rfl, (condHolds_L s.flags).symm⟩
    · exact ⟨.LE, rfl, (condHolds_LE s.flags).symm⟩
  obtain ⟨c, hexec, rfl⟩ := jump
  exact ⟨_, hexec.trans (jumpIf_eq c d s), rfl, rfl, SameRegs.of_regs rfl, SameMem.of_mem rfl, ⟨rfl, rfl, rfl, rfl⟩, ⟨rfl, rfl, rfl⟩⟩

end Sys2Proof.Machine
end

/-! The data movement of 43_data_movement.md: the MOV family, each form a write of its destination and an advance of the pc. -/

section
namespace Sys2Proof.Machine

open Sys2Proof.Safety

/-! ### What an advance leaves alone (R29, R33, R237) -/

/-- After a change of registers and memory alone. -/
theorem State.advance_frame {s u : State} (h : u = { s with regs := u.regs, mem := u.mem }) (n : Nat) :
    (u.advance n).pc = s.pc + BitVec.ofNat 32 n ∧ (u.advance n).flags = s.flags ∧ SameRun s (u.advance n) ∧
      SameIo s (u.advance n) := by
  rw [h]
  exact ⟨rfl, rfl, ⟨rfl, rfl, rfl, rfl⟩, rfl, rfl, rfl⟩

/-- After a change of registers alone. -/
theorem State.advance_frame_of_onlyRegs {s u : State} (h : u = { s with regs := u.regs }) (n : Nat) :
    (u.advance n).pc = s.pc + BitVec.ofNat 32 n ∧ (u.advance n).flags = s.flags ∧ SameMem s (u.advance n) ∧
      SameRun s (u.advance n) ∧ SameIo s (u.advance n) := by
  rw [h]
  exact ⟨rfl, rfl, SameMem.of_mem rfl, ⟨rfl, rfl, rfl, rfl⟩, rfl, rfl, rfl⟩

/-! ### Writing the r/m operand (R171 to R173) -/

/-- The rule of every form that writes a 32-bit r/m operand as its last action. -/
theorem complete_writeRM32_advance {s : State} {m : ModRM} (h : Accessible 4 m s) (v : Word) (n : Nat) :
    ∃ t, complete s (s.writeRM32 m v >>= fun u => pure (u.advance n)) = .next t ∧ WroteRM32 m v s t ∧
      t.pc = s.pc + BitVec.ofNat 32 n ∧ t.flags = s.flags ∧ SameRun s t ∧ SameIo s t := by
  obtain ⟨u, hwrite, hwrote, honly⟩ := State.writeRM32_spec h v
  exact ⟨u.advance n, by rw [bind_of_ok _ hwrite]; rfl, wroteRM32_congr hwrote rfl rfl, State.advance_frame honly n⟩

/-- The rule of every form that writes an 8-bit r/m operand as its last action. -/
theorem complete_writeRM8_advance {s : State} {m : ModRM} (h : Accessible 1 m s) (v : Byte) (n : Nat) :
    ∃ t, complete s (s.writeRM8 m v >>= fun u => pure (u.advance n)) = .next t ∧ WroteRM8 m v s t ∧
      t.pc = s.pc + BitVec.ofNat 32 n ∧ t.flags = s.flags ∧ SameRun s t ∧ SameIo s t := by
  obtain ⟨u, hwrite, hwrote, honly⟩ := State.writeRM8_spec h v
  exact ⟨u.advance n, by rw [bind_of_ok _ hwrite]; rfl, wroteRM8_congr hwrote rfl rfl, State.advance_frame honly n⟩

/-- Settles O30: the two forms write the same operand, from different sources and with different lengths. -/
theorem movToRm32WritesTheOperand : Obligations.MovToRm32WritesTheOperand := fun m s h =>
  ⟨fun imm => complete_writeRM32_advance h imm (5 + m.len), complete_writeRM32_advance h (s.reg m.reg) (1 + m.len)⟩

/-- Settles O31: the source byte view is read before the write. -/
theorem movToRm8WritesOneByte : Obligations.MovToRm8WritesOneByte := fun m s h =>
  complete_writeRM8_advance h (s.reg8 m.reg) (1 + m.len)

/-! ### Loading a register (R170, R174, R175) -/

/-- MOV r32, imm32 always completes. -/
theorem exec_movR32Imm32 (r : RegNum) (imm : Word) (s : State) :
    exec (.movR32Imm32 r imm) s = .next ((s.setReg r imm).advance 5) := rfl

/-- MOV r32, r/m32 completes where its operand can be read. -/
theorem exec_movR32Rm32 {m : ModRM} {s : State} {v : Word} (h : s.readRM32 m = .ok v) :
    exec (.movR32Rm32 m) s = .next ((s.setReg m.reg v).advance (1 + m.len)) := by
  rw [exec, execMovR32Rm32, bind_of_ok _ h]; rfl

/-- MOV r8, r/m8 completes where its operand can be read. -/
theorem exec_movR8Rm8 {m : ModRM} {s : State} {v : Byte} (h : s.readRM8 m = .ok v) :
    exec (.movR8Rm8 m) s = .next ((s.setReg8 m.reg v).advance (1 + m.len)) := by
  rw [exec, execMovR8Rm8, bind_of_ok _ h]; rfl

/-- Settles O32: the operand is read in the state before, and its value loaded. -/
theorem movFromRm32LoadsTheRegister : Obligations.MovFromRm32LoadsTheRegister := fun m _ _ h =>
  ⟨_, exec_movR32Rm32 (State.readRM32_operand h), onlyReg_of_regs rfl,
    State.advance_frame_of_onlyRegs rfl (1 + m.len)⟩

/-- Settles O33: the byte is read in the state before, and loaded into the view alone. -/
theorem movFromRm8LoadsTheByteView : Obligations.MovFromRm8LoadsTheByteView := fun m s v h =>
  ⟨_, exec_movR8Rm8 (State.readRM8_operand h), onlyReg8_of_regs rfl,
    State.advance_frame_of_onlyRegs (s.setReg8_eq_withRegs m.reg v) (1 + m.len)⟩

/-- Settles O29: the load of a value that needs no read. -/
theorem movR32Imm32LoadsTheRegister : Obligations.MovR32Imm32LoadsTheRegister := fun r imm s =>
  ⟨_, exec_movR32Imm32 r imm s, onlyReg_of_regs rfl, State.advance_frame_of_onlyRegs rfl 5⟩

end Sys2Proof.Machine
end

/-! The arithmetic and comparisons of 44_arithmetic_compare.md: the byte comparison under either widening, the forms that update
the r/m operand, the comparisons, and the sub-opcodes that are not implemented. -/

section
namespace Sys2Proof.Machine

open Sys2Proof.Safety

/-! ### The widening of bytes (R86) -/

/-- Either widening keeps the byte in the low eight bits. -/
theorem widen_setWidth (e : Ext) (b : Byte) : (widen e b).setWidth 8 = b := by
  cases e with
  | sign => exact sext32_setWidth b
  | zero => exact BitVec.setWidth_setWidth_of_le b (by decide)

/-- So different bytes widen to different words. -/
theorem widen_injective (e : Ext) : Function.Injective (widen e) := Function.LeftInverse.injective (widen_setWidth e)

/-- Sign extension keeps the signed value. -/
theorem widen_sign_toInt (b : Byte) : (widen .sign b).toInt = b.toInt := BitVec.toInt_signExtend_of_le (by decide)

/-- Zero extension keeps the unsigned value. -/
theorem widen_zero_toNat (b : Byte) : (widen .zero b).toNat = b.toNat := BitVec.toNat_setWidth_of_le (by decide)

/-- A zero-extended byte is no negative word. -/
theorem widen_zero_toInt (b : Byte) : (widen .zero b).toInt = b.toNat := by
  have hb := widen_zero_toNat b
  rw [BitVec.toInt_eq_toNat_of_lt (by omega), hb]

/-- A widened byte is small beside a word, so that a difference of two does not leave the signed words. -/
theorem widen_toInt_bounds (e : Ext) (b : Byte) : -128 ≤ (widen e b).toInt ∧ (widen e b).toInt ≤ 255 := by
  have hb := BitVec.toInt_eq_toNat_cond b
  cases e with
  | sign => rw [widen_sign_toInt]; omega
  | zero => rw [widen_zero_toInt]; omega

/-- Either widening keeps the unsigned order: the sign extension moves the upper half of the bytes to the top of the words. -/
theorem widen_toNat_lt_iff (e : Ext) (a b : Byte) : (widen e a).toNat < (widen e b).toNat ↔ a.toNat < b.toNat := by
  cases e with
  | sign =>
    have ha := widen_sign_toInt a
    have hb := widen_sign_toInt b
    rw [BitVec.toInt_eq_toNat_cond, BitVec.toInt_eq_toNat_cond] at ha hb
    omega
  | zero => rw [widen_zero_toNat, widen_zero_toNat]

/-- Comparing widened bytes never overflows. -/
theorem subFlags_widen_OF (e : Ext) (a b : Byte) : (subFlags (widen e a) (widen e b)).OF = false := by
  have ha := widen_toInt_bounds e a
  have hb := widen_toInt_bounds e b
  rw [← Bool.not_eq_true, subFlags_OF_iff]
  omega

/-- So the sign of the difference is the signed comparison of the widened bytes. -/
theorem subFlags_widen_SF (e : Ext) (a b : Byte) :
    (subFlags (widen e a) (widen e b)).SF = true ↔ (widen e a).toInt < (widen e b).toInt := by
  rw [subFlags_SF, msb_sub_eq_true_iff_of_no_overflow (subFlags_widen_OF e a b)]

/-- Settles O20: the widening is one to one and keeps the unsigned order, and no difference of widened bytes overflows. -/
theorem compareAlFlagsUnderBothExtensions : Obligations.CompareAlFlagsUnderBothExtensions := by
  intro e al imm f
  have hCF : f.CF = true ↔ al.toNat < imm.toNat := by rw [subFlags_CF, decide_eq_true_iff, widen_toNat_lt_iff]
  refine ⟨?_, hCF, subFlags_widen_OF e al imm, ?_, ?_⟩
  · rw [subFlags_ZF, decide_eq_true_iff, (widen_injective e).eq_iff]
  · rintro rfl
    rw [subFlags_widen_SF, widen_sign_toInt, widen_sign_toInt]
  · rintro rfl
    rw [Bool.eq_iff_iff, hCF, subFlags_widen_SF, widen_zero_toInt, widen_zero_toInt, Int.ofNat_lt]

/-! ### Reading, changing and writing the r/m operand (R137, R138) -/

/-- An instruction that writes its 32-bit r/m operand as a function `g` of the value it holds, and then makes a change `k` of
the state, completes where the operand exists. -/
theorem complete_updateRM32 {s : State} {m : ModRM} {a : Word} (h : Operand32 m s a) (g : Word → Word)
    (k : Word → State → State) :
    ∃ u, complete s (do let v ← s.readRM32 m; let u ← s.writeRM32 m (g v); return k v u) = .next (k a u) ∧
      WroteRM32 m (g a) s u ∧ u = { s with regs := u.regs, mem := u.mem } := by
  obtain ⟨u, hwrite, hwrote, honly⟩ := State.writeRM32_spec (accessible_of_operand32 h) (g a)
  exact ⟨u, by rw [bind_of_ok _ (State.readRM32_operand h), bind_of_ok _ hwrite]; rfl, hwrote, honly⟩

/-- The rule of the forms that write no flag (R156). -/
theorem complete_updateRM32_advance {s : State} {m : ModRM} {a : Word} (h : Operand32 m s a) (g : Word → Word) (n : Nat) :
    ∃ t, complete s (do let v ← s.readRM32 m; let u ← s.writeRM32 m (g v); return u.advance n) = .next t ∧
      WroteRM32 m (g a) s t ∧ t.pc = s.pc + BitVec.ofNat 32 n ∧ t.flags = s.flags ∧ SameRun s t ∧ SameIo s t := by
  obtain ⟨u, hnext, hwrote, honly⟩ := complete_updateRM32 h g fun _ u => u.advance n
  exact ⟨u.advance n, hnext, wroteRM32_congr hwrote rfl rfl, State.advance_frame honly n⟩

/-- Settles O34: the two forms add different words to the same operand. -/
theorem addWritesTheSumAndNoFlag : Obligations.AddWritesTheSumAndNoFlag := fun m s _ h =>
  ⟨complete_updateRM32_advance h (aluAdd · (s.reg m.reg)) (1 + m.len), fun imm =>
    complete_updateRM32_advance h (aluAdd · (sext32 imm)) (2 + m.len)⟩

/-- Settles O36: INC is the update by one. -/
theorem incRm32AddsOneAndWritesNoFlag : Obligations.IncRm32AddsOneAndWritesNoFlag := fun m _ _ h =>
  complete_updateRM32_advance h aluInc (1 + m.len)

/-- Settles O35: the flags are set after the write, from the value read before it; the rest is the frame of an advance. -/
theorem subWritesTheDifferenceAndFlags : Obligations.SubWritesTheDifferenceAndFlags := by
  intro m s a imm h
  obtain ⟨u, hnext, hwrote, honly⟩ := complete_updateRM32 h (aluSub · (sext32 imm)) fun a u =>
    (u.setFlags (subFlags a (sext32 imm))).advance (2 + m.len)
  obtain ⟨hpc, -, hrun, hio⟩ := State.advance_frame honly (2 + m.len)
  exact ⟨_, hnext, wroteRM32_congr hwrote rfl rfl, hpc, rfl, hrun, hio⟩

/-! ### Comparing (R183, R188 to R190) -/

/-- A comparison writes the flags and advances: registers, memory and all else stay. -/
theorem State.setFlags_advance_frame (s : State) (f : Flags) (n : Nat) :
    let t := (s.setFlags f).advance n
    t.flags = f ∧ t.pc = s.pc + BitVec.ofNat 32 n ∧ SameRegs s t ∧ SameMem s t ∧ SameRun s t ∧ SameIo s t :=
  ⟨rfl, rfl, SameRegs.of_regs rfl, SameMem.of_mem rfl, ⟨rfl, rfl, rfl, rfl⟩, rfl, rfl, rfl⟩

/-- CMP r/m32, imm8 completes where its operand can be read. -/
theorem exec_cmpRm32Imm8 {m : ModRM} {s : State} {v : Word} (h : s.readRM32 m = .ok v) (imm : Byte) :
    exec (.cmpRm32Imm8 m imm) s = .next ((s.setFlags (subFlags v (imm.signExtend 32))).advance (2 + m.len)) := by
  rw [exec, execCmpRm32Imm8, bind_of_ok _ h]; rfl

/-- CMP r32, r/m32 completes where its operand can be read. -/
theorem exec_cmpR32Rm32 {m : ModRM} {s : State} {v : Word} (h : s.readRM32 m = .ok v) :
    exec (.cmpR32Rm32 m) s = .next ((s.setFlags (subFlags (s.reg m.reg) v)).advance (1 + m.len)) := by
  rw [exec, execCmpR32Rm32, bind_of_ok _ h]; rfl

/-- CMP EAX, imm32 always completes. -/
theorem exec_cmpEaxImm32 (imm : Word) (s : State) :
    exec (.cmpEaxImm32 imm) s = .next ((s.setFlags (subFlags (s.reg EAX) imm)).advance 5) := rfl

/-- CMP AL, imm8 always completes. -/
theorem exec_cmpAlImm8 (imm : Byte) (s : State) :
    exec (.cmpAlImm8 imm) s = .next ((s.setFlags
      (subFlags (widen s.cfg.cmpAlImm8Ext (s.reg8 AL)) (widen s.cfg.cmpAlImm8Ext imm))).advance 2) := rfl

/-- Settles O38: the operand is read in the state before, and a comparison leaves that state but for flags and pc. -/
theorem compareRm32WritesFlagsOnly : Obligations.CompareRm32WritesFlagsOnly := fun _ s _ h =>
  have hread := State.readRM32_operand h
  ⟨fun imm => ⟨_, exec_cmpRm32Imm8 hread imm, s.setFlags_advance_frame _ _⟩,
    ⟨_, exec_cmpR32Rm32 hread, s.setFlags_advance_frame _ _⟩⟩

/-- AL is the low byte of EAX (R23). -/
theorem State.reg8_AL (s : State) : s.reg8 AL = (s.reg EAX).setWidth 8 :=
  (BitVec.setWidth_eq_extractLsb' (by decide)).symm

/-- Settles O39: AL is the low byte of EAX, and each setting of the parameter gives its own widening. -/
theorem compareAccumulatorWritesFlagsOnly : Obligations.CompareAccumulatorWritesFlagsOnly := by
  intro s
  refine ⟨fun imm => ⟨_, exec_cmpEaxImm32 imm s, s.setFlags_advance_frame _ 5⟩, fun imm => ?_⟩
  obtain ⟨hflags, hframe⟩ := s.setFlags_advance_frame
    (subFlags (widen s.cfg.cmpAlImm8Ext (s.reg8 AL)) (widen s.cfg.cmpAlImm8Ext imm)) 2
  refine ⟨_, exec_cmpAlImm8 imm s, hflags.trans ?_, hframe⟩
  rw [State.reg8_AL]
  cases s.cfg.cmpAlImm8Ext <;> rfl

/-! ### INC r32 (R187) -/

/-- INC r32 always completes. -/
theorem exec_incR32 (r : RegNum) (s : State) :
    exec (.incR32 r) s = .next ((s.setReg r (s.reg r + 1)).advance 1) := rfl

/-- Settles O37: under the default table the byte is the encoding of INC, and only the register and the pc are written. -/
theorem incR32AddsOneAndWritesNoFlag : Obligations.IncR32AddsOneAndWritesNoFlag := fun r s =>
  ⟨decode_encode OpcodeTable.ia32_legal (i := .incR32 r) rfl,
    _, exec_incR32 r s, onlyReg_of_regs rfl, State.advance_frame_of_onlyRegs rfl 1⟩

/-! ### The unimplemented sub-opcodes (R184, R186) -/

/-- An unimplemented sub-opcode of the first group stops before any operand is touched (D9). -/
theorem exec_grp83Unimplemented (m : ModRM) (s : State) :
    exec (.grp83Unimplemented m) s = .next (s.raiseFatal (.subopcodeNotImplemented s.cfg.opc.grp83 m.reg)) := rfl

/-- An unimplemented sub-opcode of the second group stops before any operand is touched (D9). -/
theorem exec_grpFFUnimplemented (m : ModRM) (s : State) :
    exec (.grpFFUnimplemented m) s = .next (s.raiseFatal (.subopcodeNotImplemented s.cfg.opc.grpFF m.reg)) := rfl

/-- Settles O40: both rows are the fatal stop, whose frame is said once. -/
theorem unimplementedSubopcodesAreFatal : Obligations.UnimplementedSubopcodesAreFatal := fun m s =>
  ⟨⟨_, exec_grp83Unimplemented m s, fatalFrom_raiseFatal s _⟩, ⟨_, exec_grpFFUnimplemented m s, fatalFrom_raiseFatal s _⟩,
    rfl, rfl⟩

end Sys2Proof.Machine
end

/-! The stack of 45_stack.md: the pushes, the pops, a pop right after a push, and LEAVE. -/

section
namespace Sys2Proof.Machine

open Sys2Proof.Safety

/-! ### Pushing (R200, R202, R204, R205) -/

/-- A push in range stores the word below the old stack pointer, moves the pointer there, and touches nothing else (R200). -/
theorem State.push32_spec {s : State} (h : (s.reg ESP - 4).toNat + 4 ≤ s.cfg.memSize) (v : Word) :
    ∃ u, s.push32 v = .ok u ∧ Stored32 (s.reg ESP - 4) v s u ∧ OnlyReg ESP (s.reg ESP - 4) s u ∧
      u = { s with regs := u.regs, mem := u.mem } :=
  ⟨_, State.push32_ok h v, stored32_of_mem rfl, onlyReg_of_regs rfl, rfl⟩

/-- The rule of every PUSH form, where the slot is in range. -/
theorem complete_push32_advance {s : State} (h : (s.reg ESP - 4).toNat + 4 ≤ s.cfg.memSize) (v : Word) (n : Nat) :
    ∃ t, complete s (s.push32 v >>= fun u => pure (u.advance n)) = .next t ∧ Stored32 (s.reg ESP - 4) v s t ∧
      OnlyReg ESP (s.reg ESP - 4) s t ∧ t.pc = s.pc + BitVec.ofNat 32 n ∧ t.flags = s.flags ∧ SameRun s t ∧ SameIo s t := by
  obtain ⟨u, hpush, hstored, hesp, honly⟩ := State.push32_spec h v
  exact ⟨u.advance n, by rw [bind_of_ok _ hpush]; rfl, hstored, hesp, State.advance_frame honly n⟩

/-- Settles O41: the byte is the encoding of PUSH, and the register is read before the stack pointer moves. -/
theorem pushR32StoresBelowTheStackPointer : Obligations.PushR32StoresBelowTheStackPointer := fun r s =>
  ⟨decode_encode OpcodeTable.ia32_legal (i := .pushR32 r) rfl, fun h => complete_push32_advance h (s.reg r) 1,
    fun h => fatalFrom_of_first_error (State.push32_error h (s.reg r)) rfl⟩

/-- Settles O42: both forms are the one push, the 8-bit form of its immediate widened. -/
theorem pushImmediateStoresFourBytes : Obligations.PushImmediateStoresFourBytes := fun s =>
  ⟨fun h => ⟨fun imm => complete_push32_advance h imm 5,
      fun imm => complete_push32_advance h (widen s.cfg.pushImm8Ext imm) 2⟩,
    fun h => ⟨fun imm => fatalFrom_of_first_error (State.push32_error h imm) rfl,
      fun imm => fatalFrom_of_first_error (State.push32_error h (widen s.cfg.pushImm8Ext imm)) rfl⟩⟩

/-! ### Popping (R201, R203) -/

/-- POP r32 completes where the top of the stack can be read; the register is written last (D11). -/
theorem exec_popR32 {s u : State} {v : Word} (h : s.pop32 = .ok (v, u)) (r : RegNum) :
    exec (.popR32 r) s = .next ((u.setReg r v).advance 1) := by
  rw [exec, execPopR32, bind_of_ok _ h]; rfl

/-- The later of two register writes counts where they meet. -/
theorem State.reg_setReg_setReg (s : State) (p r : RegNum) (a v : Word) (q : RegNum) :
    ((s.setReg p a).setReg r v).reg q = if q = r then v else if q = p then a else s.reg q := by
  rw [State.reg_setReg, State.reg_setReg]

/-- Settles O43: the stack pointer moves first and the register is written last, so POP ESP keeps the popped value. -/
theorem popR32LoadsFromTheStackPointer : Obligations.PopR32LoadsFromTheStackPointer := fun r s =>
  ⟨decode_encode OpcodeTable.ia32_legal (i := .popR32 r) rfl,
    fun h => ⟨_, exec_popR32 (State.pop32_ok h) r, s.reg_setReg_setReg ESP r _ _,
      State.advance_frame_of_onlyRegs rfl 1⟩,
    fun h => fatalFrom_of_first_error (State.pop32_error h) rfl⟩

/-! ### A pop right after a push (R207) -/

/-- The state a push of `v` in `s` leaves pops `v`, and the stack pointer is that of `s` again. -/
theorem State.pop32_of_pushed {s t : State} {v : Word} (h : (s.reg ESP - 4).toNat + 4 ≤ s.cfg.memSize)
    (hstored : Stored32 (s.reg ESP - 4) v s t) (hesp : t.reg ESP = s.reg ESP - 4) (hcfg : t.cfg = s.cfg) :
    t.pop32 = .ok (v, t.setReg ESP (s.reg ESP)) := by
  have hin : (t.reg ESP).toNat + 4 ≤ t.cfg.memSize := by rwa [hesp, hcfg]
  rw [State.pop32_ok hin, hesp, value32_of_stored hstored, BitVec.sub_add_cancel]

/-- Settles O44: the pop finds what the push stored, and writes the register after it has restored the stack pointer. -/
theorem pushThenPopRestoresTheStackPointer : Obligations.PushThenPopRestoresTheStackPointer := by
  intro v r s hr h
  obtain ⟨t, hpush, hstored, ⟨hesp, -⟩, -, -, ⟨hcfg, -⟩, -⟩ := complete_push32_advance h v 5
  refine ⟨t, _, hpush, exec_popR32 (State.pop32_of_pushed h hstored hesp hcfg) r, ?_, ?_⟩
  · rw [State.reg_advance, State.reg_setReg_self]
  · rw [State.reg_advance, State.reg_setReg, if_neg hr.symm, State.reg_setReg_self]

/-! ### LEAVE (R206) -/

/-- Of two writes of one register the later one remains. -/
theorem State.setReg_setReg_same (s : State) (r : RegNum) (a v : Word) : (s.setReg r a).setReg r v = s.setReg r v := by
  simp only [State.setReg, Vector.set_set]

/-- With the stack pointer at the frame pointer, a pop in range reads the frame's word and moves past it. -/
theorem State.pop32_at_frame_ok {s : State} (h : (s.reg EBP).toNat + 4 ≤ s.cfg.memSize) :
    (s.setReg ESP (s.reg EBP)).pop32 = .ok (value32 s (s.reg EBP), s.setReg ESP (s.reg EBP + 4)) := by
  have hesp := s.reg_setReg_self ESP (s.reg EBP)
  rw [State.pop32_ok (by rwa [hesp]), hesp, State.setReg_setReg_same]; rfl

/-- With the stack pointer at the frame pointer, a pop past the bound names the frame pointer. -/
theorem State.pop32_at_frame_error {s : State} (h : s.cfg.memSize < (s.reg EBP).toNat + 4) :
    (s.setReg ESP (s.reg EBP)).pop32 = .error (.memRange (s.reg EBP) 4 .read) := by
  have hesp := s.reg_setReg_self ESP (s.reg EBP)
  rw [State.pop32_error (by rwa [hesp]), hesp]

/-- LEAVE completes where the frame's word can be read. -/
theorem exec_leave {s : State} (h : (s.reg EBP).toNat + 4 ≤ s.cfg.memSize) :
    exec .leave s = .next (((s.setReg ESP (s.reg EBP + 4)).setReg EBP (value32 s (s.reg EBP))).advance 1) := by
  rw [exec, execLeave, bind_of_ok _ (State.pop32_at_frame_ok h)]; rfl

/-- Settles O45: LEAVE is a pop into EBP with the stack pointer put at the old EBP; the fault takes that back (R253). -/
theorem leaveRestoresTheFrame : Obligations.LeaveRestoresTheFrame := fun s =>
  ⟨decode_encode OpcodeTable.ia32_legal (i := .leave) rfl,
    fun h => ⟨_, exec_leave h, s.reg_setReg_setReg ESP EBP _ _,
      State.advance_frame_of_onlyRegs rfl 1⟩,
    fun h => fatalFrom_of_first_error (State.pop32_at_frame_error h) rfl⟩

end Sys2Proof.Machine
end

/-! The control transfer of 46_control_transfer.md: the unconditional jumps, CALL, RET, and a RET right after a CALL. -/

section
namespace Sys2Proof.Machine

open Sys2Proof.Safety

/-! ### What a transfer leaves alone (R29, R33, R237) -/

/-- Setting the pc after a change of registers and memory alone. -/
theorem State.setPc_frame {s u : State} (h : u = { s with regs := u.regs, mem := u.mem }) (p : Word) :
    (u.setPc p).flags = s.flags ∧ SameRun s (u.setPc p) ∧ SameIo s (u.setPc p) := by
  rw [h]
  exact ⟨rfl, ⟨rfl, rfl, rfl, rfl⟩, rfl, rfl, rfl⟩

/-! ### CALL (R200, R223) -/

/-- CALL completes where the return address can be pushed; its target counts from that address. -/
theorem exec_callRel32 {s u : State} (h : s.push32 (s.pc + 5) = .ok u) (d : Word) :
    exec (.callRel32 d) s = .next (u.setPc (s.pc + 5 + d)) := by
  rw [exec, execCallRel32, bind_of_ok _ h]; rfl

/-- Settles O48: CALL is the push of the return address and the write of the pc; the fault of the push leaves both undone
(R253). -/
theorem callPushesTheReturnAddress : Obligations.CallPushesTheReturnAddress := by
  refine fun s d => ⟨fun h => ?_, fun h => fatalFrom_of_first_error (State.push32_error h (s.pc + 5)) rfl⟩
  obtain ⟨u, hpush, hstored, hesp, honly⟩ := State.push32_spec h (s.pc + 5)
  exact ⟨_, exec_callRel32 hpush d, hstored, hesp, rfl, State.setPc_frame honly _⟩

/-! ### RET (R201, R224) -/

/-- RET completes where the top of the stack can be read. -/
theorem exec_ret {s u : State} {v : Word} (h : s.pop32 = .ok (v, u)) : exec .ret s = .next (u.setPc v) := by
  rw [exec, execRet, bind_of_ok _ h]; rfl

/-- Settles O49: RET is a pop into the pc, and a pop moves the stack pointer alone. -/
theorem retPopsThePc : Obligations.RetPopsThePc := by
  refine fun s => ⟨decode_encode OpcodeTable.ia32_legal (i := .ret) rfl, fun h => ?_,
    fun h => fatalFrom_of_first_error (State.pop32_error h) rfl⟩
  obtain ⟨hflags, hrun, hio⟩ :=
    State.setPc_frame (s := s) (u := s.setReg ESP (s.reg ESP + 4)) rfl (value32 s (s.reg ESP))
  exact ⟨_, exec_ret (State.pop32_ok h), rfl, onlyReg_of_regs rfl, hflags, SameMem.of_mem rfl, hrun, hio⟩

/-! ### A RET right after a CALL (R54, R223, R224) -/

/-- Where one register alone has changed, writing its old value back restores all. -/
theorem sameRegs_setReg_of_onlyReg {s t : State} {r : RegNum} {v : Word} (h : OnlyReg r v s t) :
    SameRegs s (t.setReg r (s.reg r)) := by
  intro q
  rw [State.reg_setReg]
  by_cases hq : q = r
  · rw [if_pos hq, hq]
  · rw [if_neg hq, h.2 q hq]

/-- Settles O50: the RET pops the return address that the CALL stored, and the pop restores the one register that the CALL
changed. -/
theorem retAfterCallReturns : Obligations.RetAfterCallReturns := by
  intro s d h
  obtain ⟨t, hcall, hstored, hesp, -, hflags, ⟨hcfg, -⟩, -⟩ := (callPushesTheReturnAddress s d).1 h
  exact ⟨t, _, hcall, exec_ret (State.pop32_of_pushed h hstored hesp.1 hcfg), rfl, sameRegs_setReg_of_onlyReg hesp, hflags⟩

/-! ### JMP (R210 to R212) -/

/-- JMP rel8 always completes; its target counts from the byte after its two. -/
theorem exec_jmpRel8 (d : Byte) (s : State) :
    exec (.jmpRel8 d) s = .next (s.setPc (s.pc + 2 + d.signExtend 32)) := rfl

/-- JMP rel32 always completes; its target counts from the byte after its five. -/
theorem exec_jmpRel32 (d : Word) (s : State) : exec (.jmpRel32 d) s = .next (s.setPc (s.pc + 5 + d)) := rfl

/-- A jump writes the pc alone. -/
theorem State.setPc_frame_of_jump (s : State) (p : Word) :
    let t := s.setPc p
    t.pc = p ∧ t.flags = s.flags ∧ SameRegs s t ∧ SameMem s t ∧ SameRun s t ∧ SameIo s t := by
  obtain ⟨hflags, hrun, hio⟩ := State.setPc_frame (s := s) (u := s) rfl p
  exact ⟨rfl, hflags, SameRegs.of_regs rfl, SameMem.of_mem rfl, hrun, hio⟩

/-- Settles O46: both forms write the pc alone, each with its own length and displacement. -/
theorem jumpsGoToTheirTarget : Obligations.JumpsGoToTheirTarget := fun s =>
  ⟨fun d => ⟨_, exec_jmpRel8 d s, s.setPc_frame_of_jump _⟩, fun d => ⟨_, exec_jmpRel32 d s, s.setPc_frame_of_jump _⟩⟩

end Sys2Proof.Machine
end

/-! The interrupt and I/O instructions of 47_io_interrupt.md: the teletype service, the interrupts that are only logged, and the two
port instructions. -/

section
namespace Sys2Proof.Machine

open Sys2Proof.Safety

/-! ### What an event and an advance leave alone (R29, R33) -/

/-- After a change of the event sequence alone. -/
theorem State.advance_frame_of_onlyEvents (s : State) (es : List Event) (n : Nat) :
    let t := ({ s with events := es } : State).advance n
    t.events = es ∧ t.pc = s.pc + BitVec.ofNat 32 n ∧ SameRegs s t ∧ t.flags = s.flags ∧ SameMem s t ∧ SameRun s t ∧
      t.consoleIn = s.consoleIn ∧ t.consolePolls = s.consolePolls :=
  ⟨rfl, rfl, SameRegs.of_regs rfl, rfl, SameMem.of_mem rfl, ⟨rfl, rfl, rfl, rfl⟩, rfl, rfl⟩

/-! ### INT (R230 to R232) -/

/-- The teletype service of vector 0x10 (R231). -/
theorem exec_intImm8_teletype {s : State} (h : s.reg8 AH = 0x0E) :
    exec (.intImm8 0x10) s = .next ((s.emit (.display (s.reg8 AL) ((s.reg8 BL &&& 0x0F).extractLsb' 0 3)
      ((s.reg8 BL &&& 0x0F).extractLsb' 3 1))).advance 2) := by
  have hAH : (s.advance 2).reg8 AH = 0x0E := h
  simp only [exec, execIntImm8, if_pos hAH]; rfl

/-- Any other function of vector 0x10 is logged (R230). -/
theorem exec_intImm8_otherFunction {s : State} (h : s.reg8 AH ≠ 0x0E) :
    exec (.intImm8 0x10) s = .next ((s.emit (.unhandledVideoFunction (s.reg8 AH))).advance 2) := by
  have hAH : ¬ (s.advance 2).reg8 AH = 0x0E := h
  simp only [exec, execIntImm8, if_neg hAH]; rfl

/-- Any other vector is logged (R230). -/
theorem exec_intImm8_otherVector {v : Byte} (h : v ≠ 0x10) (s : State) :
    exec (.intImm8 v) s = .next ((s.emit (.unhandledInterrupt v)).advance 2) := by
  simp only [exec, execIntImm8, if_neg h]; rfl

/-- A field of the colour number, the low half of BL, is a field of EBX (R23, R231). -/
theorem State.extractLsb'_colour (s : State) {k n : Nat} (h : k + n ≤ 4) :
    (s.reg8 BL &&& 0x0F).extractLsb' k n = (s.reg EBX).extractLsb' k n := by
  refine BitVec.eq_of_getLsbD_eq fun i hi => ?_
  have hmask : ∀ j < 4, (0x0F : Byte).getLsbD j = true := by decide
  have hBL : (s.reg8 BL).getLsbD (k + i) = (s.reg EBX).getLsbD (k + i) := by
    rw [State.reg8_getLsbD s BL _ (by omega)]
    exact congrArg _ (Nat.zero_add (k + i))
  rw [BitVec.getLsbD_extractLsb', BitVec.getLsbD_extractLsb', BitVec.getLsbD_and, hmask _ (by omega), Bool.and_true, hBL]

/-- Settles O51: the colour number's two fields lie in its four bits, and AL is the low byte of EAX. -/
theorem teletypeEmitsOneTriple : Obligations.TeletypeEmitsOneTriple := by
  intro s hAH
  have hexec := exec_intImm8_teletype hAH
  rw [s.extractLsb'_colour (by decide), s.extractLsb'_colour (by decide)] at hexec
  exact ⟨_, hexec, s.advance_frame_of_onlyEvents _ 2⟩

/-- Settles O52: the triple of the teletype service at the given registers. -/
theorem teletypeBrightRedExample : Obligations.TeletypeBrightRedExample := by
  intro s hAH hAL hBL
  have hexec := exec_intImm8_teletype hAH
  rw [hAL, hBL] at hexec
  exact ⟨_, hexec, rfl, rfl⟩

/-- Settles O53: both ways to be unhandled add their event and advance. -/
theorem unhandledInterruptsAreLogged : Obligations.UnhandledInterruptsAreLogged := fun s =>
  ⟨fun _ hv => ⟨_, exec_intImm8_otherVector hv s, s.advance_frame_of_onlyEvents _ 2⟩,
    fun hAH => ⟨_, exec_intImm8_otherFunction hAH, s.advance_frame_of_onlyEvents _ 2⟩⟩

/-! ### IN (R233, R235) -/

/-- A read of the console port past the stream takes the byte the environment supplies. -/
theorem State.portIn_supplied {s : State} {p : BitVec 16} {b : Byte} (h : p = s.cfg.consolePort) (hc : s.consoleIn = [])
    (hb : Config.consoleSupply s.consolePolls = some b) :
    s.portIn p = (some b, ({ s with consolePolls := s.consolePolls + 1 } : State).emit (.consoleIn b)) := by
  simp only [State.portIn, if_pos h, State.nextInput, State.pollInput, hc, hb]

/-- A read of the console port past the stream, with no byte supplied, has polled the environment and done no more. -/
theorem State.portIn_waiting {s : State} {p : BitVec 16} (h : p = s.cfg.consolePort) (hc : s.consoleIn = [])
    (hb : Config.consoleSupply s.consolePolls = none) :
    s.portIn p = (none, { s with consolePolls := s.consolePolls + 1 }) := by
  simp only [State.portIn, if_pos h, State.nextInput, State.pollInput, hc, hb]

/-- IN completes where the port gives a byte: from the state the port leaves, AL and the pc alone change. -/
theorem exec_inAlDx_of_byte {s u : State} {b : Byte} (h : s.portIn ((s.reg EDX).extractLsb' 0 16) = (some b, u)) :
    ∃ t, exec .inAlDx s = .next t ∧ OnlyReg8 AL b u t ∧ t.pc = u.pc + 1 ∧ t.flags = u.flags ∧
      SameMem u t ∧ SameRun u t ∧ SameIo u t := by
  refine ⟨(u.setReg8 AL b).advance 1, ?_, onlyReg8_of_regs rfl, State.advance_frame_of_onlyRegs (u.setReg8_eq_withRegs AL b) 1⟩
  rw [exec, execInAlDx, State.portNumber, h]; rfl

/-- IN holds where the port gives no byte. -/
theorem exec_inAlDx_of_none {s u : State} (h : s.portIn ((s.reg EDX).extractLsb' 0 16) = (none, u)) :
    exec .inAlDx s = .next u := by
  rw [exec, execInAlDx, State.portNumber, h]; rfl

/-- Settles O54: another port gives 0 and leaves the state as it is. -/
theorem inFromAnotherPortReadsZero : Obligations.InFromAnotherPortReadsZero := fun _ hp =>
  exec_inAlDx_of_byte (State.portIn_other hp)

/-- Settles O55: the port has taken the byte off the stream and recorded it before AL is written. -/
theorem inFromTheConsoleTakesTheNextByte : Obligations.InFromTheConsoleTakesTheNextByte := by
  intro s b rest hp hstream
  obtain ⟨t, hexec, hAL, hpc, hflags, hmem, hrun, hevents, hin, hpolls⟩ :=
    exec_inAlDx_of_byte (State.portIn_stream hp hstream)
  exact ⟨t, hexec, hAL, hevents, hin, hpolls, hpc, hflags, hmem, hrun⟩

/-- Settles O56: by the environment's answer, a byte or none. -/
theorem inFromTheConsoleWaitsForAByte : Obligations.InFromTheConsoleWaitsForAByte := by
  intro s hp hstream
  cases hsupply : Config.consoleSupply s.consolePolls with
  | some b =>
    obtain ⟨t, hexec, hAL, hpc, hflags, hmem, hrun, hevents, hin, hpolls⟩ :=
      exec_inAlDx_of_byte (State.portIn_supplied hp hstream hsupply)
    exact ⟨t, hexec, hflags, hmem, hrun, hin.trans hstream, hpolls, hAL, hevents, hpc⟩
  | none =>
    exact ⟨_, exec_inAlDx_of_none (State.portIn_waiting hp hstream hsupply), rfl, SameMem.of_mem rfl,
      ⟨rfl, rfl, rfl, rfl⟩, hstream, rfl, SameRegs.of_regs rfl, rfl, rfl⟩

/-! ### OUT (R234, R236) -/

/-- A write to a port changes the event sequence alone, at the console port. -/
theorem State.portOut_eq_withEvents (s : State) (p : BitVec 16) (v : Byte) :
    s.portOut p v = { s with events := if p = s.cfg.consolePort then s.events ++ [.consoleOut v] else s.events } := by
  unfold State.portOut; split <;> rfl

/-- OUT always completes. -/
theorem exec_outDxAl (s : State) :
    exec .outDxAl s = .next ((s.portOut ((s.reg EDX).extractLsb' 0 16) ((s.reg EAX).extractLsb' 0 8)).advance 1) := rfl

/-- Settles O57: the byte is the encoding of OUT, and the port adds its event or none. -/
theorem outWritesTheConsolePortOnly : Obligations.OutWritesTheConsolePortOnly := by
  intro s
  have hexec := exec_outDxAl s
  rw [State.portOut_eq_withEvents] at hexec
  exact ⟨decode_encode OpcodeTable.ia32_legal (i := .outDxAl) rfl, _, hexec, s.advance_frame_of_onlyEvents _ 1⟩

end Sys2Proof.Machine
end

/-! The exceptions of 60_exceptions.md, over every step: the event sequence and the fatal stop. -/

section
namespace Sys2Proof.Machine

open Sys2Proof.Safety

/-- An instruction adds at most one event. -/
theorem Outcome.events_grow {wf : Bool} {s t : State} (h : Outcome wf s t) :
    ∃ es, t.events = s.events ++ es ∧ es.length ≤ 1 := by
  rcases h with ⟨c, rfl, -⟩ | ⟨-, hevents, -⟩
  · exact ⟨[.fatalStop c], rfl, le_rfl⟩
  · exact hevents

/-- Settles O16: a halt and a fatal stop add one event, an instruction at most one, a stopped machine none. -/
theorem eventsAreAppendedOneAtATime : Obligations.EventsAreAppendedOneAtATime := by
  intro s t h
  rcases step_cases h with ⟨-, rfl⟩ | ⟨-, -, rfl⟩ | ⟨-, -, -, rfl⟩ | ⟨-, -, -, ⟨c, -, rfl⟩ | ⟨i, -, hi⟩⟩
  · exact ⟨[], (List.append_nil _).symm, Nat.zero_le 1⟩
  · exact ⟨[.halted .pcZero], rfl, le_rfl⟩
  · exact ⟨[.halted .pcBound], rfl, le_rfl⟩
  · exact ⟨[.fatalStop c], rfl, le_rfl⟩
  · exact (exec_cases hi).events_grow

/-- An instruction that leaves a running state FATAL has taken the fatal stop, which discards all else (R253). -/
theorem Outcome.fatalFrom {wf : Bool} {s t : State} (h : Outcome wf s t) (hr : s.runState = .running)
    (ht : t.runState = .fatal) : ∃ c, FatalFrom c s t := by
  rcases h with ⟨c, rfl, -⟩ | ⟨⟨-, hrun, -⟩, -⟩
  · exact ⟨c, fatalFrom_raiseFatal s c⟩
  · rw [hrun, hr] at ht; cases ht

/-- Settles O10: of the branches of a step, a fetch fault and an instruction's own fatal stop alone end FATAL. -/
theorem fatalStepsArePrecise : Obligations.FatalStepsArePrecise := by
  intro s t hr h ht
  rcases step_cases h with ⟨hstop, -⟩ | ⟨-, -, rfl⟩ | ⟨-, -, -, rfl⟩ | ⟨-, -, -, ⟨c, -, rfl⟩ | ⟨i, -, hi⟩⟩
  · exact absurd hr hstop
  · rw [State.halt_runState] at ht; cases ht
  · rw [State.halt_runState] at ht; cases ht
  · exact ⟨c, fatalFrom_raiseFatal s c⟩
  · exact (exec_cases hi).fatalFrom hr ht

end Sys2Proof.Machine
end

/-! The reset of 70_reset_and_hazards.md with an image (R280). -/

section
namespace Sys2Proof.Machine

open Sys2Proof.Safety

/-- The state that `boot` answers for parameters `c` and an image that meet the requirements. -/
def State.bootedWith (c : Config) (image : List Byte) : State :=
  { State.resetWith c with mem := Memory.writeBytes [] c.loadOffset.toNat image }

/-- The requirements of R280, spelled out. -/
theorem bootable_iff {c : Config} {image : List Byte} :
    bootable c image = true ↔
      (1 ≤ c.memSize ∧ c.memSize ≤ 2 ^ 32) ∧ c.loadOffset.toNat + image.length ≤ c.memSize := by
  rw [bootable, Config.wf, Bool.and_eq_true, decide_eq_true_iff, decide_eq_true_iff]

theorem boot_of_bootable {c : Config} {image : List Byte} (h : bootable c image = true) :
    boot c image = .next (State.bootedWith c image) := if_pos h

theorem boot_of_not_bootable {c : Config} {image : List Byte} (h : ¬ bootable c image = true) :
    boot c image = .refused .configuration := if_neg h

/-- Memory after reset: the image's byte at an address of the image, 0 at any other (R43). -/
theorem State.byteAt_bootedWith (c : Config) (image : List Byte) (a : Nat) :
    (State.bootedWith c image).byteAt a =
      if h : c.loadOffset.toNat ≤ a ∧ a < c.loadOffset.toNat + image.length then image[a - c.loadOffset.toNat] else 0 :=
  Memory.read_writeBytes [] c.loadOffset.toNat a image

/-- Reset with an image that fits establishes the invariant of the machine. -/
theorem State.bootedWith_inv {c : Config} {image : List Byte} (h : c.loadOffset.toNat + image.length ≤ c.memSize) :
    Inv (State.bootedWith c image) :=
  ⟨Memory.wf_writeBytes Memory.wf_nil _ _, Memory.below_writeBytes (fun _ hc => absurd hc List.not_mem_nil) h, rfl, rfl⟩

/-- Settles O59: `boot` goes by the requirements, and the image is all that reset lists of memory. -/
theorem bootPlacesTheImageAndClearsTheRest : Obligations.BootPlacesTheImageAndClearsTheRest := by
  refine fun c image => ⟨fun hpos hsize hfits => ?_, fun hbad => boot_of_not_bootable fun hboot => ?_⟩
  · refine ⟨_, boot_of_bootable (bootable_iff.mpr ⟨⟨hpos, hsize⟩, hfits⟩), rfl, State.bootedWith_inv hfits, fun k hk => ?_,
      fun a ha => ?_, State.reg_resetWith c, rfl, rfl, rfl, rfl, rfl, rfl⟩
    · rw [State.byteAt_bootedWith, dif_pos (by omega)]
      simp only [Nat.add_sub_cancel_left]
    · rw [State.byteAt_bootedWith, dif_neg (by omega)]
  · obtain ⟨⟨hpos, hsize⟩, hfits⟩ := bootable_iff.mp hboot
    omega

end Sys2Proof.Machine
end
